-- ==== Sys2Proof/Word.lean ====
section
/-!
DEFINITION. The word types of FSCV (00_scope.md R8; 30_encoding.md R70, R77, R78; 10_state.md R31).
-/

namespace Sys2Proof

/-- A frame byte, unsigned (R8). -/
abbrev Byte := BitVec 8

/-- An input event word `w[10:0]` (R70). -/
abbrev EventWord := BitVec 11

/-- The length word of a read request (R77). -/
abbrev ReqWord := BitVec 4

/-- An output record (R78). -/
abbrev RecordWord := BitVec 32

/-- The STATUS word (R31). -/
abbrev StatusWord := BitVec 18

/-- The raw count, unsigned (R8). -/
abbrev RawCount := BitVec 16

end Sys2Proof
end

