-- ==== Sys2Proof/Config.lean ====
section
/-!
DEFINITION. What is fixed for the block: the frame layout, hardwired at the document's values
(00_scope.md R7, R9; 10_state.md R33). The literals are unaudited: log entry 12.
-/

namespace Sys2Proof

/-- The layout constants as one configuration record (R9). -/
structure Layout where
  frameLen : Nat
  startIdx : Nat
  ckFirst  : Nat
  ckLast   : Nat
  rawHi    : Nat
  rawLo    : Nat
  ckIdx    : Nat
  deriving DecidableEq, Repr

/-- The constraints R9 puts on a layout. -/
abbrev Layout.Ok (l : Layout) : Prop :=
  1 ≤ l.frameLen ∧ l.ckFirst ≤ l.ckLast ∧ l.ckLast < l.frameLen ∧
  l.rawHi < l.frameLen ∧ l.rawLo < l.frameLen ∧ l.ckIdx < l.frameLen ∧ l.startIdx < l.frameLen ∧
  ¬ (l.ckFirst ≤ l.ckIdx ∧ l.ckIdx ≤ l.ckLast)

/-- The document's layout (R7). -/
abbrev layout : Layout :=
  { frameLen := 9, startIdx := 0, ckFirst := 1, ckLast := 7, rawHi := 4, rawLo := 5, ckIdx := 8 }

/-- `FRAME_LEN` (R7). -/
abbrev frameLen : Nat := layout.frameLen
/-- `START_IDX` (R7): never checked. -/
abbrev startIdx : Nat := layout.startIdx
/-- `CK_FIRST` (R7). -/
abbrev ckFirst : Nat := layout.ckFirst
/-- `CK_LAST` (R7), inclusive. -/
abbrev ckLast : Nat := layout.ckLast
/-- `RAW_HI` (R7). -/
abbrev rawHi : Nat := layout.rawHi
/-- `RAW_LO` (R7). -/
abbrev rawLo : Nat := layout.rawLo
/-- `CK_IDX` (R7). -/
abbrev ckIdx : Nat := layout.ckIdx

/-- The consumer's `CONV_DIV` = 66.64 (R7, R18), as numerator and denominator. -/
abbrev convDiv : Nat × Nat := (6664, 100)
/-- The consumer's `CONV_MUL` = 0.08 (R7, R18), as numerator and denominator. -/
abbrev convMul : Nat × Nat := (8, 100)

theorem layout_ok : layout.Ok := by decide

@[simp] theorem frameLen_eq : frameLen = 9 := rfl
@[simp] theorem startIdx_eq : startIdx = 0 := rfl
@[simp] theorem ckFirst_eq : ckFirst = 1 := rfl
@[simp] theorem ckLast_eq : ckLast = 7 := rfl
@[simp] theorem rawHi_eq : rawHi = 4 := rfl
@[simp] theorem rawLo_eq : rawLo = 5 := rfl
@[simp] theorem ckIdx_eq : ckIdx = 8 := rfl

end Sys2Proof
end

