-- ==== Sys2Proof/Syntax.lean ====
section
/-!
DEFINITION. The input events (30_encoding.md R71): one constructor per row of spec/opcode_table.json.
-/

namespace Sys2Proof

/-- The four input events of R71. The only operand is BYTE's data (R72). -/
inductive Instr where
  /-- BYTE d: one byte of the current response (R101). -/
  | byte (d : Byte)
  /-- END: the current response is complete (R104). -/
  | endResp
  /-- ERR: the current read failed (R109). -/
  | err
  /-- TRIG: a polling tick or data-ready notification (R151). -/
  | trig
  deriving DecidableEq, Repr

end Sys2Proof
end

