-- ==== Sys2Proof/WellFormed.lean ====
section
/-!
DEFINITION. Well-formedness of events. The checks stand on the raw fields of a word (30_encoding.md R70, R73, R74),
because a term of `Instr` holds nothing that could be ill formed (R72: every byte is an operand).
-/

namespace Sys2Proof

/-- The two fields of the one format (R70). -/
structure EventFields where
  op   : BitVec 3
  data : Byte
  deriving DecidableEq, Repr

/-- The opcode is not reserved (R74). -/
def EventFields.opDefined (f : EventFields) : Bool := decide (f.op.toNat < 4)

/-- Only BYTE has data (R73). -/
def EventFields.dataAllowed (f : EventFields) : Bool := decide (f.op = 0 ∨ f.data = 0)

/-- The fields name an event: neither R73 nor R74 reserves them. -/
def EventFields.wellFormed (f : EventFields) : Bool := f.opDefined && f.dataAllowed

/-- Every event is well formed: BYTE takes any byte, 0x00 and 0xFF included (R72, R101), and the other
three take no operand (R71). -/
def Instr.wellFormed : Instr → Bool
  | .byte _  => true
  | .endResp => true
  | .err     => true
  | .trig    => true

end Sys2Proof
end

