-- ==== Sys2Proof/Decode.lean ====
section
/-!
DEFINITION. The decoder, total over all 2^11 words (30_encoding.md R75), and the encoder (R71, R86).
-/

namespace Sys2Proof

/-- Why a word is reserved (R73, R74). -/
inductive ReservedClass where
  /-- `op >= 0b100` (R74). -/
  | reservedOp
  /-- Nonzero data on END, ERR or TRIG (R73). -/
  | reservedData
  deriving DecidableEq, Repr

/-- What a word decodes to: an event, or a reserved word rejected by name (R75). -/
inductive Decoded where
  | event (i : Instr)
  | reserved (c : ReservedClass)
  deriving DecidableEq, Repr

/-- `op = w[10:8]` (R70). -/
def eventOp (w : EventWord) : BitVec 3 := w.extractLsb' 8 3

/-- `data = w[7:0]` (R70), used as is, unsigned (R72). -/
def eventData (w : EventWord) : Byte := w.extractLsb' 0 8

/-- The fields of a word (R70). -/
def eventFields (w : EventWord) : EventFields := { op := eventOp w, data := eventData w }

/-- The event an opcode names (R71), for opcodes below 0b100. -/
def eventOfOp (op : BitVec 3) (d : Byte) : Option Instr :=
  match op with
  | 0b000#3 => some (.byte d)
  | 0b001#3 => some .endResp
  | 0b010#3 => some .err
  | 0b011#3 => some .trig
  | _       => none

/-- `decode(w[10:0])` in R75's order: the opcode first, then the data, then the event. -/
def decode (w : EventWord) : Decoded :=
  match eventOfOp (eventOp w) (eventData w) with
  | none   => .reserved .reservedOp
  | some i => if eventOp w ≠ 0 ∧ eventData w ≠ 0 then .reserved .reservedData else .event i

/-- The word of an event (R71, R86): `op` in bits 10:8, `data` in bits 7:0. -/
def encode : Instr → EventWord
  | .byte d  => 0b000#3 ++ d
  | .endResp => 0b001#3 ++ 0x00#8
  | .err     => 0b010#3 ++ 0x00#8
  | .trig    => 0b011#3 ++ 0x00#8

/-- The event read from an instruction whose bits are `w`, bit 0 the least significant. An event is one word of 11
bits whatever width the table's row is padded to; a number that does not fit in 11 bits is no event word (log entry 3). -/
def decodeTableWord (_nbits w : Nat) : Option Instr :=
  if w < 2 ^ 11 then
    match decode (BitVec.ofNat 11 w) with
    | .event i    => some i
    | .reserved _ => none
  else none

end Sys2Proof
end

