-- ==== Sys2Proof/Machine/State.lean ====
section
/-!
DEFINITION. The state of the block (10_state.md R20 to R30), the reasons a step can stop, and the state after reset
(70_reset_and_hazards.md R200).
-/

namespace Sys2Proof.Machine

/-- `st` (R21): IDLE = 0, WAIT = 1. -/
inductive CycleState where
  | idle
  | wait
  deriving DecidableEq, Repr

/-- The violation causes (60_exceptions.md R177). Code 7 is never written and has no constructor (log entry 8). -/
inductive Cause where
  | none
  | byteNoReq
  | endNoReq
  | errNoReq
  | overrun
  | reservedOp
  | reservedData
  deriving DecidableEq, Repr

/-- An item of the output trace (R30): a read request towards the source or a record towards the sink. -/
inductive Item where
  | req (n : ReqWord)
  | record (w : RecordWord)
  deriving DecidableEq, Repr

/-- An input of one step (00_scope.md R13): an event word, or reset with the event offered at the same instant, if
there is one (70_reset_and_hazards.md R201). -/
inductive Input where
  | event (w : EventWord)
  | reset (offered : Option EventWord)
  deriving DecidableEq, Repr

/-- The frame window as the block's one address space (20_memory.md R50): the cells that hold a value, by rising
index. An index that is not listed has no value (R24, log entry 5). -/
abbrev Memory := List Host.Cell

/-- The block's state (R20), and the queue of inputs (the model's own field, log entry 1). -/
@[ext]
structure State where
  /-- The cycle state (R21). -/
  st     : CycleState
  /-- The fill counter and write index, 4 bits (R22). -/
  cnt    : BitVec 4
  /-- The checksum accumulator (R26). -/
  acc    : Byte
  /-- The frame window (R23, R24). -/
  win    : Memory
  /-- The pending-trigger flag (R27). -/
  tpend  : Bool
  /-- The sticky violation flag (R28). -/
  viol   : Bool
  /-- The first violation's cause (R29). -/
  vcause : Cause
  /-- The output trace, oldest item first (R30). -/
  trace  : List Item
  /-- The model's own field: the inputs offered and not yet taken, oldest first (log entry 1). -/
  inputs : List Input
  deriving DecidableEq, Repr

/-- The state after reset (R20, R200), with nothing emitted yet and no input offered (log entries 4, 10). -/
def State.reset : State :=
  { st := .idle, cnt := 0, acc := 0x00, win := [], tpend := false, viol := false, vcause := .none,
    trace := [], inputs := [] }

/-- The model's faults. Both are safe: the machine stops where the spec gives no value. -/
inductive Fault where
  /-- Raised by a window read of a cell that has no value (R24: "A read of a cell with no value is a model fault").
  Safe. No state that satisfies R25 raises it. -/
  | unwrittenCell (index : Nat)
  /-- Raised by a window access at an index that does not exist (R50: indices 0 to 8). Safe. No state that satisfies
  R25 raises it (log entry 6). -/
  | noSuchCell (index : Nat)
  deriving DecidableEq, Repr

/-- The model's refusals. Both are safe. -/
inductive Refusal where
  /-- Raised by an arm of `exec` that has no meaning yet. Safe. -/
  | notModelled (mnemonic : String)
  /-- Raised by `step` when no input is offered: the block has no step of its own (93_implementation_defined.md I7,
  log entry 2). Safe. -/
  | noInput
  deriving DecidableEq, Repr

/-- What a step or an event answers. -/
abbrev Result := Host.Outcome State Fault Refusal

end Sys2Proof.Machine
end

