-- ==== Sys2Proof/Machine/Ops.lean ====
section
/-!
DEFINITION. The shared operations over the window, the trace, the violation state, reset and the input queue.
-/

namespace Sys2Proof.Machine

/-! ### The window as an address space (00_scope.md R12, 20_memory.md R50) -/

/-- The value at an index, if it has one. -/
def Memory.read : Memory → Nat → Option Byte
  | [], _ => none
  | (a, b) :: m, i => if a = i then some b else Memory.read m i

/-- Put a value at an index, keeping the indices rising. -/
def Memory.write : Memory → Nat → Byte → Memory
  | [], i, v => [(i, v)]
  | (a, b) :: m, i, v =>
    if i < a then (i, v) :: (a, b) :: m
    else if i = a then (i, v) :: m
    else (a, b) :: Memory.write m i v

/-- No cell has a value (R24). -/
def Memory.empty : Memory := []

/-- The canonical form: indices strictly rising, each below `FRAME_LEN`. -/
abbrev Memory.wf (m : Memory) : Prop :=
  m.Pairwise (fun c d => c.1 < d.1) ∧ ∀ c ∈ m, c.1 < frameLen

/-- `MemRead(i, 1)` = `win[i]` (R12): an index that does not exist and a cell with no value fault (R24, R50). -/
def readCell (s : State) (i : Nat) : Except Fault Byte :=
  if i < frameLen then
    match s.win.read i with
    | some b => .ok b
    | none   => .error (.unwrittenCell i)
  else .error (.noSuchCell i)

/-- `MemRead(i, 2)` = `{win[i], win[i+1]}`, big-endian (R12, R52). -/
def readPair (s : State) (i : Nat) : Except Fault (BitVec 16) :=
  match readCell s i, readCell s (i + 1) with
  | .ok hi, .ok lo => .ok (hi ++ lo)
  | .error f, _    => .error f
  | .ok _, .error f => .error f

/-- `MemWrite(i, 1, v)`: `win[i] <- v` (R12). -/
def writeCell (s : State) (i : Nat) (v : Byte) : Except Fault State :=
  if i < frameLen then .ok { s with win := s.win.write i v } else .error (.noSuchCell i)

/-! ### Outputs (10_state.md R30) -/

/-- `emit`: append one item to the output trace (00_scope.md R11). -/
def emit (x : Item) (s : State) : State := { s with trace := s.trace ++ [x] }

/-- The source's channel: the requests of the trace, in order (R30). -/
def State.requests (s : State) : List ReqWord :=
  s.trace.filterMap fun | .req n => some n | .record _ => none

/-- The sink's channel: the records of the trace, in order (R30). -/
def State.records (s : State) : List RecordWord :=
  s.trace.filterMap fun | .req _ => none | .record w => some w

/-! ### Violations and reset (60_exceptions.md R176, 70_reset_and_hazards.md R200)

The block has no trap and no return from one (R180, R181): raising a violation is its only exception entry, and reset
the only thing that clears it. -/

/-- `raise Violation(c)` (R176): the first cause is kept, and nothing else changes. -/
def raiseViolation (c : Cause) (s : State) : State :=
  { s with vcause := if s.viol then s.vcause else c, viol := true }

/-- RESET (R200): every element at its reset value; the output trace is unchanged. -/
def applyReset (s : State) : State :=
  { s with st := .idle, cnt := 0, acc := 0x00, win := Memory.empty, tpend := false, viol := false, vcause := .none }

/-- The cause a reserved word raises (30_encoding.md R73, R74). -/
def reservedCause : ReservedClass → Cause
  | .reservedOp   => .reservedOp
  | .reservedData => .reservedData

/-! ### Inputs (00_scope.md R13) -/

/-- The next input in arrival order, and the state without it in the queue. -/
def takeInput (s : State) : Option (Input × State) :=
  match s.inputs with
  | []        => none
  | x :: rest => some (x, { s with inputs := rest })

/-- Offer an input as the next one to be taken. -/
def offerNext (x : Input) (s : State) : State := { s with inputs := x :: s.inputs }

end Sys2Proof.Machine
end

