-- ==== Sys2Proof/Machine/Operands.lean ====
section
/-!
DEFINITION. Output words (30_encoding.md R77 to R83) and the raw-count extractor (41_checksum_extract.md R134). The only
input operand is BYTE's data, taken by the decoder (R72).
-/

namespace Sys2Proof.Machine

/-- What a record says (30_encoding.md R78, 60_exceptions.md R170). -/
inductive Report where
  /-- A decoded frame: checksum flag, byte 0 and raw count (R80). -/
  | reading (ckv : Bool) (b0 : Byte) (raw : RawCount)
  /-- A response of `n` bytes, 1 to 8 (R81). -/
  | incomplete (n : BitVec 4)
  /-- A failed read; `n` bytes were discarded, 0 to 9 (R82). -/
  | ioError (n : BitVec 4)
  /-- A 0-byte response (R83). -/
  | eos
  deriving DecidableEq, Repr

/-- The record's 32-bit word: kind in bits 31:29, unassigned bits 0 (R78 to R83). -/
def Report.word : Report → RecordWord
  | .reading ckv b0 raw => 0b000#3 ++ 0b0000#4 ++ BitVec.ofBool ckv ++ b0 ++ raw
  | .incomplete n       => 0b001#3 ++ 0#25 ++ n
  | .ioError n          => 0b010#3 ++ 0#25 ++ n
  | .eos                => 0b011#3 ++ 0#29

/-- The kind field of a record (R78). -/
def recordKind (w : RecordWord) : BitVec 3 := w.extractLsb' 29 3

/-- The length word of the request the block issues: always `FRAME_LEN` (R77). -/
def requestWord : ReqWord := BitVec.ofNat 4 frameLen

/-- `extract_raw_count` on its two bytes: big-endian, unsigned (R134). -/
def extractRawCount (hi lo : Byte) : RawCount := hi ++ lo

end Sys2Proof.Machine
end

