-- ==== Sys2Proof/Machine/CycleControl.lean ====
section
/-!
DEFINITION. Decode-cycle control (42_cycle_control.md): the procedures and TRIG.
-/

namespace Sys2Proof.Machine

/-- Remove the response being received: `cnt <- 0; acc <- 0; every win[i] <- no value` (R152, R153). -/
def discardResponse (s : State) : State := { s with cnt := 0, acc := 0x00, win := Memory.empty }

/-- `issue_request` (R152). -/
def issueRequest (s : State) : State := emit (.req requestWord) (discardResponse s)

/-- `start_cycle` (R150). -/
def startCycle (s : State) : State := issueRequest { s with st := .wait }

/-- `end_cycle` (R153): the deferred trigger runs now, or the block goes IDLE. -/
def endCycle (s : State) : State :=
  if s.tpend then startCycle { s with tpend := false } else discardResponse { s with st := .idle }

/-- TRIG (R151). -/
def execTrig (s : State) : Result :=
  match s.st with
  | .idle => .next (startCycle s)
  | .wait => .next { s with tpend := true }

end Sys2Proof.Machine
end

