-- ==== Sys2Proof/Machine/Flags.lean ====
section
/-!
DEFINITION. The accumulator, the checksum comparator that computes the flag `ckv` (41_checksum_extract.md R130 to R133,
R140), and the STATUS word with the block's other flags (10_state.md R31, R32).
-/

namespace Sys2Proof.Machine

/-- Index `i` is one of the summed bytes, `CK_FIRST` to `CK_LAST` (R130). -/
def summed (i : Nat) : Bool := decide (ckFirst ≤ i ∧ i ≤ ckLast)

/-- `acc_step(acc, i, d)` (R130): the carry out of bit 7 is dropped. -/
def accStep (acc : Byte) (i : Nat) (d : Byte) : Byte := if summed i then acc + d else acc

/-- The sum, modulo 256, of the window bytes at summed indices below `n` (10_state.md R25; at `n = FRAME_LEN` the
frame sum of R131). A cell with no value adds nothing. -/
def windowSum (m : Memory) : Nat → Byte
  | 0     => 0
  | n + 1 => accStep (windowSum m n) n ((m.read n).getD 0)

/-- The trailer a sum calls for: its two's-complement negation at 8 bits (R132, R140). -/
def expectedTrailer (sum : Byte) : Byte := ~~~sum + 1

/-- `validate_checksum` on the sum and the trailer byte (R132): the flag `ckv`. -/
def validateChecksum (sum t : Byte) : Bool := expectedTrailer sum == t

/-- `trailer(b1..b7)` on the bytes it sums (R140). -/
def trailer (bs : List Byte) : Byte := expectedTrailer (bs.foldl (· + ·) 0)

/-- The code of a violation cause (60_exceptions.md R177). -/
def causeCode : Cause → BitVec 3
  | .none         => 0
  | .byteNoReq    => 1
  | .endNoReq     => 2
  | .errNoReq     => 3
  | .overrun      => 4
  | .reservedOp   => 5
  | .reservedData => 6

/-- BUSY: `st = WAIT` (R31). -/
def busy (s : State) : Bool :=
  match s.st with
  | .idle => false
  | .wait => true

/-- STATUS (R31), from bit 17 down: ACC, VCAUSE, VIOL, TPEND, BUSY, CNT. A read of the port is this function of the
state and changes nothing (log entry 16). -/
def statusWord (s : State) : StatusWord :=
  s.acc ++ causeCode s.vcause ++ BitVec.ofBool s.viol ++ BitVec.ofBool s.tpend ++ BitVec.ofBool (busy s) ++ s.cnt

end Sys2Proof.Machine
end

