-- ==== Sys2Proof/Machine/FrameRead.lean ====
section
/-!
DEFINITION. Frame read: BYTE, END and ERR (40_frame_read.md), and the decode of a full window (41_checksum_extract.md R136).
-/

namespace Sys2Proof.Machine

/-- `decode_frame()` (R136): the READING of a full window, whatever the checksum gives (R137). The comparator reads
`acc`, as R131 allows (log entry 17). -/
def decodeFrame (s : State) : Except Fault Report :=
  match readCell s ckIdx, readCell s rawHi, readCell s rawLo, readCell s startIdx with
  | .ok t, .ok hi, .ok lo, .ok b0 => .ok (.reading (validateChecksum s.acc t) b0 (extractRawCount hi lo))
  | .error f, _, _, _             => .error f
  | _, .error f, _, _             => .error f
  | _, _, .error f, _             => .error f
  | _, _, _, .error f             => .error f

/-- `emit Rec(w)` for a report (00_scope.md R11, 30_encoding.md R78). -/
def emitReport (r : Report) (s : State) : State := emit (.record r.word) s

/-- BYTE (R101 to R103). -/
def execByte (d : Byte) (s : State) : Result :=
  match s.st with
  | .idle => .next (raiseViolation .byteNoReq s)
  | .wait =>
    if s.cnt.toNat = frameLen then .next (raiseViolation .overrun s)
    else
      match writeCell s s.cnt.toNat d with
      | .ok s'   => .next { s' with acc := accStep s.acc s.cnt.toNat d, cnt := s.cnt + 1 }
      | .error f => .fault f

/-- END (R104 to R108). -/
def execEndResp (s : State) : Result :=
  match s.st with
  | .idle => .next (raiseViolation .endNoReq s)
  | .wait =>
    if s.cnt = 0 then .next (endCycle (emitReport .eos s))
    else if s.cnt.toNat < frameLen then .next (issueRequest (emitReport (.incomplete s.cnt) s))
    else
      match decodeFrame s with
      | .ok r    => .next (issueRequest (emitReport r s))
      | .error f => .fault f

/-- ERR (R109 to R111). -/
def execErr (s : State) : Result :=
  match s.st with
  | .idle => .next (raiseViolation .errNoReq s)
  | .wait => .next (endCycle (emitReport (.ioError s.cnt) s))

end Sys2Proof.Machine
end

