-- ==== Sys2Proof/Machine/Dispatch.lean ====
section
/-!
DEFINITION. The meaning of each event: one arm per constructor of `Instr`.
-/

namespace Sys2Proof.Machine

def exec (i : Instr) (s : State) : Host.Outcome State Fault Refusal :=
  match i with
  | .byte d => Sys2Proof.Machine.execByte d s
  | .endResp => Sys2Proof.Machine.execEndResp s
  | .err => Sys2Proof.Machine.execErr s
  | .trig => Sys2Proof.Machine.execTrig s

end Sys2Proof.Machine
end

