-- ==== Sys2Proof/Machine/Step.lean ====
section
/-!
DEFINITION. One step: the processing of one input event, or one reset (00_scope.md R13).
-/

namespace Sys2Proof.Machine

/-- Process one event word (30_encoding.md R75): a reserved word raises its violation and is otherwise ignored
(R73, R74); any other word runs its event. -/
def stepWord (w : EventWord) (s : State) : Host.Outcome State Fault Refusal :=
  match decode w with
  | .reserved c => .next (raiseViolation (reservedCause c) s)
  | .event i    => exec i s

/-- One step: take the oldest input. Reset takes precedence over the event offered with it, which is not processed
(70_reset_and_hazards.md R201). With no input offered the block has no step (log entry 2). -/
def step (s : State) : Host.Outcome State Fault Refusal :=
  match takeInput s with
  | none                => .refused .noInput
  | some (.reset _, s') => .next (applyReset s')
  | some (.event w, s') => stepWord w s'

/-- `s` with the event word offered as the next input. A word has 11 bits (log entry 3). -/
def State.withFetchWord (s : State) (_nbits w : Nat) : State := offerNext (.event (BitVec.ofNat 11 w)) s

end Sys2Proof.Machine
end

