-- ==== Sys2Proof/Machine/Consumer.lean ====
section
/-!
DEFINITION. The consumer contract (00_scope.md R18, R19): reading a record, and the conversion of the raw count to mg/m3
in binary64, round-to-nearest-even. It is outside the block. Binary64 values are their 64 bits; only the finite,
nonnegative ones R18 meets are treated (log entry 13).
-/

namespace Sys2Proof.Machine

/-- The fields of a record, by its kind (30_encoding.md R78, R80 to R83). -/
def recordFields (w : RecordWord) : Option Report :=
  match recordKind w with
  | 0b000#3 => some (.reading (w.getLsbD 24) (w.extractLsb' 16 8) (w.extractLsb' 0 16))
  | 0b001#3 => some (.incomplete (w.extractLsb' 0 4))
  | 0b010#3 => some (.ioError (w.extractLsb' 0 4))
  | 0b011#3 => some .eos
  | _       => none

/-- Read a record. A kind that is never emitted is refused (93_implementation_defined.md I10), and so is a word with a
nonzero unassigned bit (R79, log entry 14). -/
def readRecord (w : RecordWord) : Option Report :=
  match recordFields w with
  | some r => if r.word = w then some r else none
  | none   => none

/-- The floor of the base-2 logarithm of `n / d`, for positive `n` and `d`. -/
def ratioLog2 (n d : Nat) : Int :=
  let k : Int := (Nat.log2 n : Int) - (Nat.log2 d : Int)
  if n * 2 ^ (-k).toNat < d * 2 ^ k.toNat then k - 1 else k

/-- The binary64 nearest to `n / d`, ties to even (R18), where the result is zero or normal. -/
def roundRatio (n d : Nat) : BitVec 64 :=
  if n = 0 then 0
  else
    let e := ratioLog2 n d - 52
    let n' := n * 2 ^ (-e).toNat
    let d' := d * 2 ^ e.toNat
    let q := n' / d'
    let r := n' % d'
    let m := if 2 * r < d' then q else if d' < 2 * r then q + 1 else q + q % 2
    BitVec.ofNat 64 ((e + 1074).toNat * 2 ^ 52 + m)

/-- The exact value of a finite nonnegative binary64, as numerator and denominator. -/
def binary64Ratio (x : BitVec 64) : Nat × Nat :=
  let biased := (x.extractLsb' 52 11).toNat
  let frac := (x.extractLsb' 0 52).toNat
  if biased = 0 then (frac, 2 ^ 1074)
  else ((2 ^ 52 + frac) * 2 ^ (biased - 1075), 2 ^ (1075 - biased))

/-- The exact value of a finite nonnegative binary64, as a rational number. -/
def binary64Value (x : BitVec 64) : ℚ := ((binary64Ratio x).1 : ℚ) / (binary64Ratio x).2

/-- Division, rounded once (R18). -/
def binary64Div (x y : BitVec 64) : BitVec 64 :=
  roundRatio ((binary64Ratio x).1 * (binary64Ratio y).2) ((binary64Ratio x).2 * (binary64Ratio y).1)

/-- Multiplication, rounded once (R18). -/
def binary64Mul (x y : BitVec 64) : BitVec 64 :=
  roundRatio ((binary64Ratio x).1 * (binary64Ratio y).1) ((binary64Ratio x).2 * (binary64Ratio y).2)

/-- `concentration = (raw / 66.64) * 0.08`, division first, each operation rounded once (R18, 90_conflicts.md C1). -/
def concentration (raw : RawCount) : BitVec 64 :=
  binary64Mul (binary64Div (roundRatio raw.toNat 1) (roundRatio convDiv.1 convDiv.2)) (roundRatio convMul.1 convMul.2)

/-- The source's `DecodedReading` (R14). -/
structure DecodedReading where
  rawCount      : RawCount
  checksumValid : Bool
  mgPerM3       : BitVec 64
  deriving DecidableEq, Repr

/-- What the consumer makes of a record: the conversion is applied to every READING, whatever its checksum flag (R19). -/
def consume (w : RecordWord) : Option DecodedReading :=
  match readRecord w with
  | some (.reading ckv _ raw) => some { rawCount := raw, checksumValid := ckv, mgPerM3 := concentration raw }
  | some (.incomplete _)      => none
  | some (.ioError _)         => none
  | some .eos                 => none
  | none                      => none

end Sys2Proof.Machine
end

