-- ==== Sys2Proof/Machine/Assembler.lean ====
section
/-!
DEFINITION. The textual syntax of event programs and of output items (30_encoding.md R84), and the pseudo-instructions
(R85). It is not semantic (92_eei_decisions.md D20). What R84 leaves open of the syntax: log entry 15.
-/

namespace Sys2Proof.Machine

/-- A source line: an event, the out-of-band reset, a word, or a pseudo-instruction (R84, R85). -/
inductive Line where
  | event (i : Instr)
  | reset
  | word (w : EventWord)
  | frame (bs : List Byte)
  | framec (bs : List Byte)
  | partialFrame (bs : List Byte)
  | empty
  deriving DecidableEq, Repr

/-- The number of operands R85 asks for. -/
def Line.wellFormed : Line → Bool
  | .event _         => true
  | .reset           => true
  | .word _          => true
  | .frame bs        => bs.length == frameLen
  | .framec bs       => bs.length == ckIdx
  | .partialFrame bs => decide (1 ≤ bs.length ∧ bs.length < frameLen)
  | .empty           => true

/-- BYTE for each byte, then END (R85). -/
def bytesThenEnd (bs : List Byte) : List Instr := bs.map Instr.byte ++ [.endResp]

/-- The summed bytes among a frame's bytes (R85, 41_checksum_extract.md R140). -/
def summedBytes (bs : List Byte) : List Byte := (bs.take (ckLast + 1)).drop ckFirst

/-- The events a pseudo-instruction stands for (R85). -/
def expandBytes : Line → List Instr
  | .event i         => [i]
  | .reset           => []
  | .word _          => []
  | .frame bs        => bytesThenEnd bs
  | .framec bs       => bytesThenEnd (bs ++ [trailer (summedBytes bs)])
  | .partialFrame bs => bytesThenEnd bs
  | .empty           => [.endResp]

/-- The inputs a line stands for. -/
def Line.inputs : Line → List Input
  | .reset  => [.reset none]
  | .word w => [.event w]
  | l       => (expandBytes l).map fun i => .event (encode i)

/-! ### Reading text -/

/-- The text before a `;`. -/
def dropComment : List Char → List Char
  | []      => []
  | c :: cs => if c = ';' then [] else c :: dropComment cs

/-- A space, a tab or a carriage return. -/
def isBlank (c : Char) : Bool := c = ' ' || c = '\t' || c = '\r'

/-- Without blanks at either end. -/
def trimBlanks (cs : List Char) : List Char := ((cs.dropWhile isBlank).reverse.dropWhile isBlank).reverse

/-- The parts between separators. -/
def splitAtChar (sep : Char) : List Char → List (List Char)
  | []      => [[]]
  | c :: cs =>
    match splitAtChar sep cs with
    | []      => [[c]]
    | p :: ps => if c = sep then [] :: p :: ps else (c :: p) :: ps

/-- A digit's value in bases up to 16. -/
def digitValue (c : Char) : Option Nat :=
  if '0'.toNat ≤ c.toNat ∧ c.toNat ≤ '9'.toNat then some (c.toNat - '0'.toNat)
  else if 'A'.toNat ≤ c.toNat ∧ c.toNat ≤ 'F'.toNat then some (c.toNat - 'A'.toNat + 10)
  else if 'a'.toNat ≤ c.toNat ∧ c.toNat ≤ 'f'.toNat then some (c.toNat - 'a'.toNat + 10)
  else none

/-- The value of a run of digits, after a value read so far. -/
def digitsFrom (base : Nat) : Nat → List Char → Option Nat
  | n, []      => some n
  | n, c :: cs =>
    match digitValue c with
    | some d => if d < base then digitsFrom base (n * base + d) cs else none
    | none   => none

/-- A number, decimal or hexadecimal after `0x`. -/
def readNumber : List Char → Option Nat
  | []               => none
  | ['0', 'x']       => none
  | '0' :: 'x' :: cs => digitsFrom 16 0 cs
  | cs               => digitsFrom 10 0 cs

/-- A byte operand, hexadecimal or decimal (R84). -/
def readByte (cs : List Char) : Option Byte :=
  match readNumber (trimBlanks cs) with
  | some n => if n < 256 then some (BitVec.ofNat 8 n) else none
  | none   => none

/-- A list of byte operands with commas between them (R85). -/
def readBytes (cs : List Char) : Option (List Byte) := (splitAtChar ',' cs).mapM readByte

/-- The 11-bit value of a `.word` line, written `0xNNN` (R84). -/
def readWord : List Char → Option EventWord
  | '0' :: 'x' :: c :: cs =>
    match digitsFrom 16 0 (c :: cs) with
    | some n => if n < 2 ^ 11 then some (BitVec.ofNat 11 n) else none
    | none   => none
  | _ => none

/-- The line a mnemonic and its operand text stand for. -/
def readStatement (mnemonic operands : List Char) : Option Line :=
  if mnemonic = ['B', 'Y', 'T', 'E'] then (readByte operands).map fun d => .event (.byte d)
  else if mnemonic = ['F', 'R', 'A', 'M', 'E'] then (readBytes operands).map .frame
  else if mnemonic = ['F', 'R', 'A', 'M', 'E', 'C'] then (readBytes operands).map .framec
  else if mnemonic = ['P', 'A', 'R', 'T', 'I', 'A', 'L'] then (readBytes operands).map .partialFrame
  else if mnemonic = ['.', 'w', 'o', 'r', 'd'] then (readWord operands).map .word
  else if operands ≠ [] then none
  else if mnemonic = ['E', 'N', 'D'] then some (.event .endResp)
  else if mnemonic = ['E', 'R', 'R'] then some (.event .err)
  else if mnemonic = ['T', 'R', 'I', 'G'] then some (.event .trig)
  else if mnemonic = ['R', 'E', 'S', 'E', 'T'] then some .reset
  else if mnemonic = ['E', 'M', 'P', 'T', 'Y'] then some .empty
  else none

/-- One line of a program: no inputs for a blank line, none where the line is not of R84's syntax or R85's shape. -/
def assembleLine (cs : List Char) : Option (List Input) :=
  let text := trimBlanks (dropComment cs)
  if text = [] then some []
  else
    match readStatement (text.takeWhile (fun c => !isBlank c)) (trimBlanks (text.dropWhile (fun c => !isBlank c))) with
    | some l => if l.wellFormed then some l.inputs else none
    | none   => none

/-- A program, one event a line (R84). -/
def assemble (cs : List Char) : Option (List Input) :=
  ((splitAtChar '\n' cs).mapM assembleLine).map List.flatten

/-! ### Writing output items (R84) -/

/-- A hexadecimal digit. -/
def hexDigit (n : Nat) : Char := if n < 10 then Char.ofNat (n + 48) else Char.ofNat (n + 55)

/-- The lowest `k` hexadecimal digits of a number, most significant first. -/
def hexDigits : Nat → Nat → List Char
  | 0, _     => []
  | k + 1, n => hexDigits k (n / 16) ++ [hexDigit (n % 16)]

/-- A record in R84's notation. -/
def Report.text : Report → List Char
  | .reading ckv b0 raw =>
    "READING(ckv=".toList ++ [hexDigit ckv.toNat] ++ ", b0=0x".toList ++ hexDigits 2 b0.toNat ++
      ", raw=0x".toList ++ hexDigits 4 raw.toNat ++ [')']
  | .incomplete n => "INCOMPLETE(".toList ++ Nat.toDigits 10 n.toNat ++ [')']
  | .ioError n    => "IOERROR(".toList ++ Nat.toDigits 10 n.toNat ++ [')']
  | .eos          => "EOS".toList

/-- An output item in R84's notation; a word that is no record is shown as `Rec(0x…)` (00_scope.md R11). -/
def Item.text : Item → List Char
  | .req n => "Req(".toList ++ Nat.toDigits 10 n.toNat ++ [')']
  | .record w =>
    match readRecord w with
    | some r => r.text
    | none   => "Rec(0x".toList ++ hexDigits 8 w.toNat ++ [')']

end Sys2Proof.Machine
end

