-- ==== Sys2Proof/Machine/Source.lean ====
section
/-!
DEFINITION. The byte-stream source's contract (20_memory.md R56, 70_reset_and_hazards.md R208), and the outcome of one
whole response (40_frame_read.md R100) in the form that looks at the complete list of bytes, not byte by byte.
-/

namespace Sys2Proof.Machine

/-- What the source owes the block: nothing in IDLE; in WAIT the answer to one request, of which so many bytes have been
delivered (10_state.md R21, R22). -/
def outstanding (s : State) : Option Nat :=
  match s.st with
  | .idle => none
  | .wait => some s.cnt.toNat

/-- The events R56 allows: TRIG at any time (R151); BYTE, END and ERR only as the answer to a request, and at most
`FRAME_LEN` bytes of it. -/
def sourceMay : Option Nat → Instr → Bool
  | _, .trig         => true
  | none, .byte _    => false
  | none, .endResp   => false
  | none, .err       => false
  | some k, .byte _  => decide (k < frameLen)
  | some _, .endResp => true
  | some _, .err     => true

/-- The environment's duty for one input: an event word that is not reserved and that R56 allows; reset only while no
request is outstanding (70_reset_and_hazards.md R203, R205). -/
def inputConforms (s : State) : Input → Bool
  | .event w =>
    match decode w with
    | .event i    => sourceMay (outstanding s) i
    | .reserved _ => false
  | .reset _ => decide (s.st = .idle)

/-- A response (00_scope.md R15): its bytes in stream order, closed by ERR if the read failed and by END if not. -/
structure Response where
  bytes : List Byte
  fails : Bool
  deriving DecidableEq, Repr

/-- At most `FRAME_LEN` bytes (R56). -/
def Response.conforms (r : Response) : Bool := decide (r.bytes.length ≤ frameLen)

/-- The response's closing event (R15). -/
def Response.terminator (r : Response) : Instr := if r.fails then .err else .endResp

/-- The response as events (R15). -/
def Response.events (r : Response) : List Instr := r.bytes.map Instr.byte ++ [r.terminator]

/-- The response as inputs of the block. -/
def Response.inputs (r : Response) : List Input := r.events.map fun i => .event (encode i)

/-- The full integer sum of a frame's summed bytes, indices `CK_FIRST` to `CK_LAST` (41_checksum_extract.md R133). -/
def frameSum (bs : List Byte) : Nat :=
  (((bs.take (ckLast + 1)).drop ckFirst).map BitVec.toNat).sum

/-- Byte `i` of a frame. -/
def frameByte (bs : List Byte) (i : Nat) : Byte := bs.getD i 0

/-- `ckv` of a whole frame, in R133's second form (the source's own statement): the complement is taken of the full
integer sum, modulo 256. -/
def frameChecksumOk (bs : List Byte) : Bool :=
  (frameByte bs ckIdx).toNat == ((255 - frameSum bs % 256) + 1) % 256

/-- The report of a response (R100): by its terminator and its byte count. -/
def Response.report (r : Response) : Report :=
  if r.fails then .ioError (BitVec.ofNat 4 r.bytes.length)
  else if r.bytes.length = 0 then .eos
  else if r.bytes.length < frameLen then .incomplete (BitVec.ofNat 4 r.bytes.length)
  else
    .reading (frameChecksumOk r.bytes) (frameByte r.bytes startIdx)
      (BitVec.ofNat 16 ((frameByte r.bytes rawHi).toNat * 256 + (frameByte r.bytes rawLo).toNat))

/-- The response ends the cycle (R100): a 0-byte response or a failed read. -/
def Response.endsCycle (r : Response) : Bool := r.fails || decide (r.bytes.length = 0)

end Sys2Proof.Machine
end

