-- ==== Sys2Proof/Safety.lean ====
section
/-!
DEFINITION. What claims about the block speak of: the invariant of the state, faulted and final states, and runs whose
environment keeps its contract.
-/

namespace Sys2Proof.Machine

/-- A word the block may put in a record (30_encoding.md R78, R79): kind below 0b100, unassigned bits 0. -/
def recordAllowed (w : RecordWord) : Bool :=
  match recordKind w with
  | 0b000#3 => w.extractLsb' 25 4 == 0#4
  | 0b001#3 => w.extractLsb' 4 25 == 0#25
  | 0b010#3 => w.extractLsb' 4 25 == 0#25
  | 0b011#3 => w.extractLsb' 0 29 == 0#29
  | _       => false

/-- An item the block may emit: every request asks for `FRAME_LEN` bytes (R77). -/
def Item.allowed : Item → Bool
  | .req n    => n.toNat == frameLen
  | .record w => recordAllowed w

/-- The invariant: R25, with R22's bound, the window's canonical form, and what the flags and outputs keep. -/
structure StateInv (s : State) : Prop where
  /-- The window is in canonical form. -/
  winWf      : s.win.wf
  /-- `FRAME_LEN + 1` to 15 are never held (10_state.md R22). -/
  cntBound   : s.cnt.toNat ≤ frameLen
  /-- In IDLE the counter and the accumulator are 0 and no cell has a value (R25). -/
  idleClear  : s.st = .idle → s.cnt = 0 ∧ s.acc = 0 ∧ ∀ i, s.win.read i = none
  /-- In WAIT a cell has a value exactly when its index is below the counter (R25). -/
  waitCells  : s.st = .wait → ∀ i, (s.win.read i).isSome = true ↔ i < s.cnt.toNat
  /-- In WAIT the accumulator is the sum of the summed bytes received (R25). -/
  waitSum    : s.st = .wait → s.acc = windowSum s.win s.cnt.toNat
  /-- A trigger is pending only while a cycle runs (R27; 42_cycle_control.md R151, R153). -/
  idleTpend  : s.st = .idle → s.tpend = false
  /-- The cause is NONE exactly while there is no violation (R28, R29). -/
  causeNone  : s.vcause = .none ↔ s.viol = false
  /-- Every emitted item is one the block may emit (R77 to R79). -/
  itemsOk    : ∀ x ∈ s.trace, x.allowed = true

/-- How many of the 2^11 event words decode to something of a kind (30_encoding.md R75). -/
def wordCount (p : Decoded → Bool) : Nat := (List.range (2 ^ 11)).countP fun n => p (decode (BitVec.ofNat 11 n))

/-- A model treats every state with `viol = 1` as faulted, and never as final (60_exceptions.md R178). -/
def State.faulted (s : State) : Bool := s.viol

/-- A state a claim about a run may end in (R178). -/
def State.mayBeFinal (s : State) : Bool := !s.faulted

/-- A run starts from the state after reset, with the environment's inputs offered; no run starts elsewhere
(70_reset_and_hazards.md R204, log entry 11). -/
def runStart (ins : List Input) : State := { State.reset with inputs := ins }

/-- `n` steps of the host's machine. -/
def runSteps (n : Nat) (s : State) : Result := Sys2Proof.core.run n s

/-- A claim about the state a run of `n` steps ends in. It takes `viol = 0` at the run's end as a premise, so that nothing is
claimed of a run in which the environment broke its contract (60_exceptions.md R178). -/
def RunClaim (n : Nat) (s : State) (claim : State → Prop) : Prop :=
  ∀ t : State, runSteps n s = .next t → t.mayBeFinal = true → claim t

/-- The end of the run over all the inputs. -/
def runFromReset (ins : List Input) : Result := runSteps ins.length (runStart ins)

/-- For the next `n` steps the environment offers an input and keeps its contract (20_memory.md R56,
70_reset_and_hazards.md R203). -/
def ConformingFor : Nat → State → Prop
  | 0, _     => True
  | n + 1, s =>
    (∃ x rest, s.inputs = x :: rest ∧ inputConforms s x = true) ∧ ∀ t, step s = .next t → ConformingFor n t

end Sys2Proof.Machine
end

