-- ==== Sys2Proof/Certificates/Slice0/Obligations.lean ====
section
/-!
DEFINITION. The statements for the provers. Each cites the rule of spec/ it formalises. OBLIGATIONS.json lists them.
-/

open Sys2Proof Sys2Proof.Machine

/-! ### Encoding -/

/-- R86: the fixed words of the four events, read and written. -/
def Obligations.FixedWordsDecodeToTheirEvents : Prop :=
  decode 0x100#11 = .event .endResp ∧ decode 0x200#11 = .event .err ∧ decode 0x300#11 = .event .trig ∧
  decode 0x000#11 = .event (.byte 0x00) ∧ decode 0x0BC#11 = .event (.byte 0xBC) ∧
  decode 0x0FF#11 = .event (.byte 0xFF) ∧
  encode .endResp = 0x100#11 ∧ encode .err = 0x200#11 ∧ encode .trig = 0x300#11 ∧
  ∀ d, (encode (.byte d)).toNat = 0x000 + d.toNat

/-- Decode and encode agree, both ways: every event has exactly one word (R70, R71, R75, R86). -/
def Obligations.EachEventHasExactlyOneWord : Prop :=
  ∀ (w : EventWord) (i : Instr), decode w = .event i ↔ w = encode i

/-- R75: the decoder's order of checks, and its counts over all 2^11 words. -/
def Obligations.WordsAreClassifiedInOrder : Prop :=
  (∀ w : EventWord,
    (decode w = .reserved .reservedOp ↔ 4 ≤ w.toNat / 256) ∧
    (decode w = .reserved .reservedData ↔ w.toNat / 256 < 4 ∧ w.toNat / 256 ≠ 0 ∧ w.toNat % 256 ≠ 0) ∧
    (w.toNat / 256 = 0 → decode w = .event (.byte (BitVec.ofNat 8 w.toNat))) ∧
    (w.toNat / 256 = 1 → w.toNat % 256 = 0 → decode w = .event .endResp) ∧
    (w.toNat / 256 = 2 → w.toNat % 256 = 0 → decode w = .event .err) ∧
    (w.toNat / 256 = 3 → w.toNat % 256 = 0 → decode w = .event .trig)) ∧
  wordCount (fun | .event (.byte _) => true | _ => false) = 256 ∧
  wordCount (fun | .event .endResp => true | _ => false) = 1 ∧
  wordCount (fun | .event .err => true | _ => false) = 1 ∧
  wordCount (fun | .event .trig => true | _ => false) = 1 ∧
  wordCount (fun | .reserved .reservedData => true | _ => false) = 765 ∧
  wordCount (fun | .reserved .reservedOp => true | _ => false) = 1024

/-- R71, R86, and log entry 3 for numbers of more than 11 bits: the numbers that the table's reading takes for each event,
whatever width the row is given. -/
def Obligations.TableWordsAreTheFixedWords : Prop :=
  ∀ nbits w : Nat,
    (∀ d, decodeTableWord nbits w = some (.byte d) ↔ w = 0x000 + d.toNat) ∧
    (decodeTableWord nbits w = some .endResp ↔ w = 0x100) ∧
    (decodeTableWord nbits w = some .err ↔ w = 0x200) ∧
    (decodeTableWord nbits w = some .trig ↔ w = 0x300)

/-! ### The step -/

/-- One step processes one input event (00_scope.md R13): a word that decodes to an event runs that event's meaning in the
state without that input. The second clause says the same of a word placed by `withFetchWord`, which is the model's: log
entry 4 for offering it, and the choice of log entry 3 for keeping the low 11 bits of a larger number. -/
def Obligations.StepRunsTheDecodedEvent : Prop :=
  (∀ (s : State) (w : EventWord) (rest : List Input) (i : Instr),
    s.inputs = .event w :: rest → decode w = .event i → step s = exec i { s with inputs := rest }) ∧
  ∀ (s : State) (nbits w : Nat) (i : Instr),
    decode (BitVec.ofNat 11 w) = .event i → step (s.withFetchWord nbits w) = exec i s

/-- The model's choice of log entry 2, for 93_implementation_defined.md I7: the block has no step exactly when no input is
offered, and that is the only refusal. -/
def Obligations.StepIsRefusedExactlyWithoutInput : Prop :=
  ∀ (s : State) (r : Refusal), step s = .refused r ↔ s.inputs = [] ∧ r = .noInput

/-- R200, R201: reset, in any state and with or without an event offered beside it, sets every element to its reset value,
leaves the trace as it is and makes STATUS 0; and it is the only way to clear `viol` and `vcause`. -/
def Obligations.ResetClearsAllButTheTrace : Prop :=
  (∀ (s : State) (off : Option EventWord) (rest : List Input), s.inputs = .reset off :: rest →
    ∃ t, step s = .next t ∧
      t = { s with
            st := .idle, cnt := 0, acc := 0x00, win := t.win, tpend := false, viol := false, vcause := .none,
            inputs := rest } ∧
      (∀ a, t.win.read a = none) ∧ statusWord t = 0x00000#18) ∧
  ∀ s t : State, step s = .next t → (∀ off rest, s.inputs ≠ .reset off :: rest) →
    (s.viol = true → t.viol = true) ∧ (s.viol = true → t.vcause = s.vcause)

/-- R20, R31: the reset values of the table in R20, and STATUS after reset. -/
def Obligations.StateAfterResetHoldsTheTablesValues : Prop :=
  State.reset.st = .idle ∧ State.reset.cnt = 0 ∧ State.reset.acc = 0x00 ∧
  (∀ a, State.reset.win.read a = none) ∧ State.reset.tpend = false ∧ State.reset.viol = false ∧
  causeCode State.reset.vcause = 0 ∧ statusWord State.reset = 0x00000#18

/-- R31: the fields of STATUS, and its value after reset. -/
def Obligations.StatusShowsTheState : Prop :=
  (∀ s : State,
    (statusWord s).extractLsb' 0 4 = s.cnt ∧
    (statusWord s).getLsbD 4 = decide (s.st = .wait) ∧
    (statusWord s).getLsbD 5 = s.tpend ∧
    (statusWord s).getLsbD 6 = s.viol ∧
    (statusWord s).extractLsb' 7 3 = causeCode s.vcause ∧
    (statusWord s).extractLsb' 10 8 = s.acc) ∧
  statusWord State.reset = 0x00000#18

/-! ### Violations -/

/-- R103, R108, R111, R176: an event that breaks the contract sets `viol`, records the first cause, and changes nothing
else; so does a BYTE into a full window (R102). -/
def Obligations.ViolatingEventsOnlyRaise : Prop :=
  (∀ (s : State) (d : Byte), s.st = .idle →
    exec (.byte d) s = .next { s with viol := true, vcause := if s.viol then s.vcause else .byteNoReq }) ∧
  (∀ s : State, s.st = .idle →
    exec .endResp s = .next { s with viol := true, vcause := if s.viol then s.vcause else .endNoReq }) ∧
  (∀ s : State, s.st = .idle →
    exec .err s = .next { s with viol := true, vcause := if s.viol then s.vcause else .errNoReq }) ∧
  (∀ (s : State) (d : Byte), s.st = .wait → s.cnt = 9 →
    exec (.byte d) s = .next { s with viol := true, vcause := if s.viol then s.vcause else .overrun })

/-- R73, R74: a reserved word raises its violation in every state and is otherwise ignored. -/
def Obligations.ReservedWordsOnlyRaise : Prop :=
  ∀ (s : State) (w : EventWord) (rest : List Input), s.inputs = .event w :: rest →
    (4 ≤ w.toNat / 256 →
      step s = .next { s with inputs := rest, viol := true, vcause := if s.viol then s.vcause else .reservedOp }) ∧
    (w.toNat / 256 < 4 → w.toNat / 256 ≠ 0 → w.toNat % 256 ≠ 0 →
      step s = .next { s with inputs := rest, viol := true, vcause := if s.viol then s.vcause else .reservedData })

/-- R177: from a state without a violation, exactly the table's conditions set `viol`, each with its code in
STATUS[9:7]; the code is 0 for NONE and never 7. -/
def Obligations.FirstViolationShowsItsCode : Prop :=
  (∀ (s : State) (w : EventWord) (rest : List Input) (c : BitVec 3),
    s.viol = false → s.inputs = .event w :: rest →
    ((∃ t, step s = .next t ∧ t.viol = true ∧ (statusWord t).extractLsb' 7 3 = c) ↔
      (c = 1 ∧ s.st = .idle ∧ w.toNat / 256 = 0) ∨
      (c = 2 ∧ s.st = .idle ∧ w = 0x100) ∨
      (c = 3 ∧ s.st = .idle ∧ w = 0x200) ∨
      (c = 4 ∧ s.st = .wait ∧ s.cnt = 9 ∧ w.toNat / 256 = 0) ∨
      (c = 5 ∧ 4 ≤ w.toNat / 256) ∨
      (c = 6 ∧ w.toNat / 256 < 4 ∧ w.toNat / 256 ≠ 0 ∧ w.toNat % 256 ≠ 0))) ∧
  (∀ s : State, (statusWord s).extractLsb' 7 3 = 0 ↔ s.vcause = .none) ∧
  ∀ s : State, (statusWord s).extractLsb' 7 3 ≠ 7

/-- R28: while `viol` is 1 the block goes on by the normal rules: what an event does to everything but `viol` and
`vcause` does not depend on them. -/
def Obligations.EventsRunTheSameAfterAViolation : Prop :=
  ∀ (i : Instr) (s t : State) (v : Bool) (c : Cause), exec i s = .next t →
    ∃ v' c', exec i { s with viol := v, vcause := c } = .next { t with viol := v', vcause := c' }

/-- R208: from a state that satisfies the invariant and holds no violation, an event word is followed by a faulted state
exactly when it breaks the source's contract (20_memory.md R56) or is reserved. -/
def Obligations.ViolationsAreExactlyContractBreaches : Prop :=
  ∀ (s : State) (w : EventWord) (rest : List Input), StateInv s → s.viol = false → s.inputs = .event w :: rest →
    ∃ t, step s = .next t ∧ (t.faulted = true ↔ inputConforms s (.event w) = false)

/-! ### BYTE, END, ERR and TRIG -/

/-- R101, R130: BYTE in WAIT below a full window stores its byte at index `cnt`, adds it to `acc` at a summed index, and
counts it; nothing else changes. Otherwise it raises its violation. -/
def Obligations.ByteStoresSumsAndCounts : Prop :=
  (∀ (s : State) (d : Byte), s.st = .wait → s.cnt.toNat < 9 →
    ∃ t, exec (.byte d) s = .next t ∧
      t = { s with win := t.win, acc := t.acc, cnt := s.cnt + 1 } ∧
      (∀ a, t.win.read a = if a = s.cnt.toNat then some d else s.win.read a) ∧
      (s.win.wf → t.win.wf) ∧
      (1 ≤ s.cnt.toNat ∧ s.cnt.toNat ≤ 7 → t.acc.toNat = (s.acc.toNat + d.toNat) % 256) ∧
      (s.cnt.toNat = 0 ∨ s.cnt.toNat = 8 → t.acc = s.acc)) ∧
  (∀ (s : State) (d : Byte), s.st = .idle → exec (.byte d) s = .next (raiseViolation .byteNoReq s)) ∧
  ∀ (s : State) (d : Byte), s.st = .wait → s.cnt = 9 → exec (.byte d) s = .next (raiseViolation .overrun s)

/-- R105, with R153: END after 0 bytes emits EOS and ends the cycle; a pending trigger starts the next cycle at once. -/
def Obligations.EmptyResponseEndsTheCycle : Prop :=
  ∀ s : State, s.st = .wait → s.cnt = 0 →
    ∃ t, exec .endResp s = .next t ∧ (∀ a, t.win.read a = none) ∧
      (s.tpend = false →
        t = { s with
              st := .idle, cnt := 0, acc := 0x00, win := t.win, trace := s.trace ++ [.record 0x60000000#32] }) ∧
      (s.tpend = true →
        t = { s with
              cnt := 0, acc := 0x00, win := t.win, tpend := false,
              trace := s.trace ++ [.record 0x60000000#32, .req 9#4] })

/-- R106, with R152: END after 1 to 8 bytes reports INCOMPLETE with the byte count, discards the response and asks for the
next 9 bytes; the cycle goes on. -/
def Obligations.PartialResponseIsReportedAndDiscarded : Prop :=
  ∀ s : State, s.st = .wait → 1 ≤ s.cnt.toNat → s.cnt.toNat ≤ 8 →
    ∃ t, exec .endResp s = .next t ∧ (∀ a, t.win.read a = none) ∧
      t = { s with
            cnt := 0, acc := 0x00, win := t.win,
            trace := s.trace ++ [.record (0x20000000#32 + s.cnt.setWidth 32), .req 9#4] }

/-- R107, R132, R134, R136: END after 9 bytes emits the READING of the window, whatever the checksum gives, and asks for
the next 9 bytes. -/
def Obligations.FullResponseIsDecoded : Prop :=
  ∀ (s : State) (b0 hi lo tr : Byte), s.st = .wait → s.cnt = 9 →
    s.win.read 0 = some b0 → s.win.read 4 = some hi → s.win.read 5 = some lo → s.win.read 8 = some tr →
    ∃ (t : State) (w : RecordWord), exec .endResp s = .next t ∧ (∀ a, t.win.read a = none) ∧
      t = { s with cnt := 0, acc := 0x00, win := t.win, trace := s.trace ++ [.record w, .req 9#4] } ∧
      w.toNat = (if ((255 - s.acc.toNat) + 1) % 256 = tr.toNat then 2 ^ 24 else 0) + b0.toNat * 2 ^ 16 +
        (hi.toNat * 256 + lo.toNat)

/-- R109, R110, R111: ERR in WAIT emits IOERROR with the byte count and nothing else for that response, and ends the
cycle; a pending trigger starts the next cycle at once. In IDLE it raises its violation. -/
def Obligations.FailedReadEndsTheCycle : Prop :=
  (∀ s : State, s.st = .wait →
    ∃ t, exec .err s = .next t ∧ (∀ a, t.win.read a = none) ∧
      (s.tpend = false →
        t = { s with
              st := .idle, cnt := 0, acc := 0x00, win := t.win,
              trace := s.trace ++ [.record (0x40000000#32 + s.cnt.setWidth 32)] }) ∧
      (s.tpend = true →
        t = { s with
              cnt := 0, acc := 0x00, win := t.win, tpend := false,
              trace := s.trace ++ [.record (0x40000000#32 + s.cnt.setWidth 32), .req 9#4] })) ∧
  ∀ s : State, s.st = .idle → exec .err s = .next (raiseViolation .errNoReq s)

/-- R151: TRIG in IDLE starts a cycle; in WAIT it sets `tpend` and disturbs nothing. -/
def Obligations.TrigStartsOrDefersACycle : Prop :=
  (∀ s : State, s.st = .idle →
    ∃ t, exec .trig s = .next t ∧ (∀ a, t.win.read a = none) ∧
      t = { s with st := .wait, cnt := 0, acc := 0x00, win := t.win, trace := s.trace ++ [.req 9#4] }) ∧
  (∀ s : State, s.st = .wait → exec .trig s = .next { s with tpend := true }) ∧
  ∃ t, exec .trig State.reset = .next t ∧ statusWord t = 0x00010#18

/-- R24, R50, and log entry 6: an event stops only on a window cell that does not exist or has no value, and then exactly
so: BYTE with a counter above 9 stops on the cell at the counter, and END with a counter of 9 or more stops on a cell of the
decode that has no value, if there is one. An event is never refused. -/
def Obligations.EventsStopOnlyOnMissingCells : Prop :=
  ∀ (i : Instr) (s : State),
    (∀ r, exec i s ≠ .refused r) ∧
    ((∃ f, exec i s = .fault f) ↔
      s.st = .wait ∧
        ((∃ d, i = .byte d ∧ 9 < s.cnt.toNat) ∨
         (i = .endResp ∧ 9 ≤ s.cnt.toNat ∧ ∃ a ∈ [0, 4, 5, 8], s.win.read a = none))) ∧
    (∀ f, exec i s = .fault f →
      (∃ d, i = .byte d ∧ f = .noSuchCell s.cnt.toNat) ∨
      (i = .endResp ∧ ∃ a ∈ [0, 4, 5, 8], s.win.read a = none ∧ f = .unwrittenCell a))

/-! ### What an event leaves unchanged -/

/-- The frame of the window (R23, R50, R152, R153): a BYTE that is accepted changes the cell at `cnt` only; an event that
issues a request or ends a cycle leaves no cell a value; every other event leaves every cell as it was. -/
def Obligations.WindowCellsAfterAnEvent : Prop :=
  ∀ (i : Instr) (s t : State) (a : Nat), exec i s = .next t →
    t.win.read a =
      match s.st, i with
      | .wait, .byte d  => if s.cnt ≠ 9 ∧ a = s.cnt.toNat then some d else s.win.read a
      | .wait, .endResp => none
      | .wait, .err     => none
      | .wait, .trig    => s.win.read a
      | .idle, .trig    => none
      | .idle, .byte _  => s.win.read a
      | .idle, .endResp => s.win.read a
      | .idle, .err     => s.win.read a

/-- The frame of the registers (R20's column "written by"): each register changes only in the events R20 names, and no
event touches the inputs still offered. -/
def Obligations.RegistersChangeOnlyWhereTheTableSays : Prop :=
  ∀ (i : Instr) (s t : State), exec i s = .next t →
    t.inputs = s.inputs ∧
    (t.st ≠ s.st → (i = .trig ∧ s.st = .idle) ∨ (i = .err ∧ s.st = .wait) ∨
      (i = .endResp ∧ s.st = .wait ∧ s.cnt = 0)) ∧
    (t.cnt ≠ s.cnt → (∃ d, i = .byte d ∧ s.st = .wait ∧ t.cnt = s.cnt + 1) ∨
      (t.cnt = 0 ∧ ((i = .trig ∧ s.st = .idle) ∨ (i = .err ∧ s.st = .wait) ∨ (i = .endResp ∧ s.st = .wait)))) ∧
    (t.acc ≠ s.acc → (∃ d, i = .byte d ∧ s.st = .wait ∧ t.acc = s.acc + d) ∨
      (t.acc = 0 ∧ ((i = .trig ∧ s.st = .idle) ∨ (i = .err ∧ s.st = .wait) ∨ (i = .endResp ∧ s.st = .wait)))) ∧
    (t.tpend ≠ s.tpend → (i = .trig ∧ s.st = .wait ∧ t.tpend = true) ∨
      (s.st = .wait ∧ t.tpend = false ∧ (i = .err ∨ (i = .endResp ∧ s.cnt = 0)))) ∧
    (t.viol ≠ s.viol ∨ t.vcause ≠ s.vcause →
      t = { s with viol := true, vcause := t.vcause } ∧ s.viol = false ∧
        ((∃ d, i = .byte d ∧ (s.st = .idle ∨ s.cnt = 9)) ∨ (i = .endResp ∧ s.st = .idle) ∨ (i = .err ∧ s.st = .idle)))

/-! ### The cycle and the outputs -/

/-- R27, R156: triggers during a cycle coalesce. The first one emits nothing, a second one changes nothing more, and when
the cycle ends exactly one deferred cycle starts. -/
def Obligations.TriggersDuringACycleCoalesce : Prop :=
  ∀ s : State, s.st = .wait →
    ∃ t u, exec .trig s = .next t ∧ t.trace = s.trace ∧ exec .trig t = .next t ∧
      exec .err t = .next u ∧ u.st = .wait ∧ u.tpend = false ∧ u.requests = s.requests ++ [9#4]

/-- R155: a cycle ends (the block goes IDLE, or takes the pending trigger) only by END with `cnt = 0`, by ERR, or by
reset. -/
def Obligations.CycleEndsOnlyByEosErrorOrReset : Prop :=
  ∀ s t : State, step s = .next t → s.st = .wait → (t.st = .idle ∨ (s.tpend = true ∧ t.tpend = false)) →
    (∃ off rest, s.inputs = .reset off :: rest) ∨
    (∃ rest, s.inputs = .event 0x100#11 :: rest ∧ s.cnt = 0) ∨
    (∃ rest, s.inputs = .event 0x200#11 :: rest)

/-- R154: in WAIT one request is outstanding and in IDLE none is, as long as no reset abandons one. Every event keeps the
number of requests minus the number of records minus BUSY, for every trace. The other two clauses, that it is 0 in the state
after reset and at the end of a run from there, are the model's choice: they rest on the empty trace of `State.reset`, a DESIGN
CHOICE (log entry 10). The claim about a run has R178's premise. -/
def Obligations.OneRequestIsOutstandingWhileBusy : Prop :=
  (∀ s t : State, step s = .next t → (∀ off rest, s.inputs ≠ .reset off :: rest) →
    t.requests.length + s.records.length + (busy s).toNat = s.requests.length + t.records.length + (busy t).toNat) ∧
  (∀ ins : List Input,
    (runStart ins).requests.length = (runStart ins).records.length + (busy (runStart ins)).toNat) ∧
  ∀ (n : Nat) (ins : List Input), (∀ off, .reset off ∉ ins) →
    RunClaim n (runStart ins) fun t => t.requests.length = t.records.length + (busy t).toNat

/-- R30: the trace only grows, by at most two items an event, and not at all at reset. -/
def Obligations.OutputTraceOnlyGrows : Prop :=
  ∀ s t : State, step s = .next t →
    ∃ items, t.trace = s.trace ++ items ∧ items.length ≤ 2 ∧
      ((∃ off rest, s.inputs = .reset off :: rest) → items = [])

/-- R77, R79: every request asks for 9 bytes, and the bits of a record that no rule assigns are 0. -/
def Obligations.EmittedItemsAreWellFormed : Prop :=
  ∀ s t : State, step s = .next t →
    ∃ items, t.trace = s.trace ++ items ∧
      ∀ x ∈ items, (∀ n, x = .req n → n = 9#4) ∧ ∀ w, x = .record w → recordAllowed w = true

/-- R34: whatever event issues a request leaves `cnt` and `acc` 0 and no cell a value, and a decode does not depend on
`tpend`, `viol`, `vcause` or earlier outputs. -/
def Obligations.RequestIssueForgetsTheResponse : Prop :=
  (∀ (i : Instr) (s t : State), exec i s = .next t → s.requests.length < t.requests.length →
    t.cnt = 0 ∧ t.acc = 0x00 ∧ ∀ a, t.win.read a = none) ∧
  ∀ (s t : State), s.win = t.win → s.acc = t.acc → decodeFrame s = decodeFrame t

/-! ### Invariant -/

/-- The invariant (R22, R25) holds in the state after reset, whatever inputs are offered. Its clause on emitted items rests on
the model's choice of an empty trace there (log entry 10). -/
def Obligations.InvariantHoldsAtReset : Prop := ∀ ins : List Input, StateInv (runStart ins)

/-- The invariant (R22, R25) is kept by every step: by every event, by every reserved word and by reset. -/
def Obligations.StepKeepsTheInvariant : Prop := ∀ s t : State, StateInv s → step s = .next t → StateInv t

/-- R175: no input halts the block. The premise is the invariant, which rules out states no run reaches. -/
def Obligations.NoInputHaltsTheBlock : Prop :=
  ∀ (s : State) (x : Input) (rest : List Input), StateInv s → s.inputs = x :: rest →
    ∃ t, step s = .next t ∧ t.inputs = rest

/-! ### Responses -/

/-- R53: stream order is index order. k BYTE events from the start of a response (k at most 9) complete without a violation;
then cell i holds byte i of the stream for i < k, and no other cell has a value; nothing was emitted. What is claimed of the
run's end has R178's premise. -/
def Obligations.StreamOrderIsIndexOrder : Prop :=
  ∀ (bs : List Byte) (s : State) (rest : List Input), StateInv s → s.st = .wait → s.cnt = 0 → bs.length ≤ 9 →
    s.inputs = bs.map (fun d => Input.event (encode (.byte d))) ++ rest →
    (∃ t : State, runSteps bs.length s = .next t ∧ t.viol = s.viol ∧ t.vcause = s.vcause) ∧
    RunClaim bs.length s fun t => t.inputs = rest ∧ t.st = .wait ∧
      t.cnt.toNat = bs.length ∧ (∀ i, t.win.read i = bs[i]?) ∧ t.trace = s.trace

/-- R100: a response that keeps the source's contract completes without a violation, and has exactly one outcome, fixed by its
terminator and its byte count. The record is computed from the whole list of bytes (`Response.report`), not byte by byte. What
is claimed of the run's end has R178's premise. -/
def Obligations.ResponseHasExactlyOneOutcome : Prop :=
  ∀ (r : Response) (s : State) (rest : List Input), StateInv s → s.st = .wait → s.cnt = 0 → r.conforms = true →
    s.inputs = r.inputs ++ rest →
    (∃ t : State, runSteps (r.bytes.length + 1) s = .next t ∧ t.viol = s.viol ∧ t.vcause = s.vcause) ∧
    RunClaim (r.bytes.length + 1) s fun t =>
      t.inputs = rest ∧
      t.trace = s.trace ++ .record r.report.word ::
        (if r.endsCycle = true ∧ s.tpend = false then [] else [.req 9#4]) ∧
      t.st = (if r.endsCycle = true ∧ s.tpend = false then .idle else .wait) ∧
      t.tpend = (if r.endsCycle = true then false else s.tpend) ∧
      t.cnt = 0 ∧ t.acc = 0x00 ∧ ∀ a, t.win.read a = none

/-- Over any number of steps, an environment that keeps its contract (20_memory.md R56, 70_reset_and_hazards.md R203) never
makes the block stop or reach a faulted state (60_exceptions.md R177, R178), from any state that satisfies the invariant
and holds no violation. -/
def Obligations.ConformingEnvironmentNeverViolates : Prop :=
  ∀ (n : Nat) (s : State), StateInv s → s.faulted = false → ConformingFor n s →
    ∃ t : State, runSteps n s = .next t ∧ t.mayBeFinal = true ∧ StateInv t

/-! ### Checksum and raw count -/

/-- R139, R140: for any bytes 1 to 7, exactly one value of byte 8 passes the checksum, and it is the trailer. -/
def Obligations.TrailerIsTheOnlyPassingByte : Prop :=
  ∀ (p : List Byte) (b0 t : Byte), p.length = 7 →
    (frameChecksumOk (b0 :: p ++ [t]) = true ↔ t = trailer p) ∧
    (trailer p).toNat = (256 - (p.map BitVec.toNat).sum % 256) % 256

/-- R133: the three forms of the comparator agree: the block's, the form that adds the trailer, and the source's form
over the full integer sum, with the complement taken at any width of at least 11 bits. -/
def Obligations.ComparatorFormsAgree : Prop :=
  (∀ s t : Byte, validateChecksum s t = true ↔ (s.toNat + t.toNat) % 256 = 0) ∧
  (∀ s t : Byte, validateChecksum s t = true ↔ t.toNat = (256 - s.toNat) % 256) ∧
  (∀ (width : Nat) (bs : List Byte), 11 ≤ width → bs.length = 9 →
    (frameChecksumOk bs = true ↔
      (frameByte bs 8).toNat = ((~~~BitVec.ofNat width (frameSum bs)).toNat % 256 + 1) % 256)) ∧
  ∀ (m : Memory) (bs : List Byte) (t : Byte), bs.length = 9 → (∀ i, m.read i = bs[i]?) → bs[8]? = some t →
    validateChecksum (windowSum m 9) t = frameChecksumOk bs

/-- R141: what the checksum detects and what it does not. -/
def Obligations.ChecksumDetectsSingleByteChanges : Prop :=
  (∀ (bs : List Byte) (k : Nat) (v : Byte), bs.length = 9 → 1 ≤ k → k ≤ 8 → bs[k]? ≠ some v →
    frameChecksumOk bs = true → frameChecksumOk (bs.set k v) = false) ∧
  (∀ (bs : List Byte) (v : Byte), bs.length = 9 → frameChecksumOk (bs.set 0 v) = frameChecksumOk bs) ∧
  (∀ (b0 t : Byte) (p q : List Byte), p.length = 7 → p.Perm q →
    frameChecksumOk (b0 :: p ++ [t]) = frameChecksumOk (b0 :: q ++ [t])) ∧
  ∀ (bs : List Byte) (j k : Nat) (x y e : Byte), bs.length = 9 → 1 ≤ j → j < k → k ≤ 8 →
    bs[j]? = some x → bs[k]? = some y →
    frameChecksumOk ((bs.set j (x + e)).set k (y - e)) = frameChecksumOk bs

/-- R135: of two full windows, the raw counts of the READINGs agree if bytes 4 and 5 do, the checksum flags agree if bytes
1 to 8 do, and `b0` is byte 0. -/
def Obligations.ReadingFieldsDependOnTheirBytesOnly : Prop :=
  ∀ s t : State, StateInv s → StateInv t → s.st = .wait → t.st = .wait → s.cnt = 9 → t.cnt = 9 →
    ∃ (s' t' : State) (w x : RecordWord), exec .endResp s = .next s' ∧ exec .endResp t = .next t' ∧
      s'.records = s.records ++ [w] ∧ t'.records = t.records ++ [x] ∧
      (s.win.read 4 = t.win.read 4 → s.win.read 5 = t.win.read 5 → w.extractLsb' 0 16 = x.extractLsb' 0 16) ∧
      ((∀ i, 1 ≤ i → i ≤ 8 → s.win.read i = t.win.read i) → w.getLsbD 24 = x.getLsbD 24) ∧
      s.win.read 0 = some (w.extractLsb' 16 8)

/-- R173: a checksum mismatch is data. Two full windows that differ in the trailer only give the same next state, STATUS
included, but for bit 24 of the record. -/
def Obligations.ChecksumMismatchIsData : Prop :=
  ∀ (s : State) (tr : Byte), StateInv s → s.st = .wait → s.cnt = 9 →
    ∃ (t u : State) (w x : RecordWord), exec .endResp s = .next t ∧
      exec .endResp { s with win := s.win.write 8 tr } = .next u ∧
      t.trace = s.trace ++ [.record w, .req 9#4] ∧ u.trace = s.trace ++ [.record x, .req 9#4] ∧
      u = { t with trace := u.trace } ∧ statusWord u = statusWord t ∧ u.st = .wait ∧ u.viol = s.viol ∧
      ∀ k, k ≠ 24 → x.getLsbD k = w.getLsbD k

/-- R52, R134: the raw count is big-endian and unsigned, and is the window's one 16-bit view. -/
def Obligations.RawCountIsBigEndian : Prop :=
  (∀ hi lo : Byte, (extractRawCount hi lo).toNat = hi.toNat * 256 + lo.toNat ∧
    (extractRawCount hi lo).extractLsb' 8 8 = hi ∧ (extractRawCount hi lo).extractLsb' 0 8 = lo) ∧
  ∀ (s : State) (hi lo : Byte), s.win.read 4 = some hi → s.win.read 5 = some lo →
    readPair s 4 = .ok (extractRawCount hi lo)

/-! ### Records, the consumer and programs -/

/-- R80 to R83: the record words as numbers. -/
def Obligations.RecordWordsAsNumbers : Prop :=
  (∀ (ckv : Bool) (b0 : Byte) (raw : RawCount),
    (Report.reading ckv b0 raw).word.toNat = ckv.toNat * 2 ^ 24 + b0.toNat * 2 ^ 16 + raw.toNat) ∧
  (∀ n : BitVec 4, (Report.incomplete n).word.toNat = 0x20000000 + n.toNat) ∧
  (∀ n : BitVec 4, (Report.ioError n).word.toNat = 0x40000000 + n.toNat) ∧
  Report.eos.word = 0x60000000#32

/-- R78: the kind of each record, a record reads back as the report it was written from, and a kind that is never emitted
is refused (93_implementation_defined.md I10). -/
def Obligations.RecordsReadBackAsWritten : Prop :=
  (∀ ckv b0 raw, recordKind (Report.reading ckv b0 raw).word = 0b000#3) ∧
  (∀ n, recordKind (Report.incomplete n).word = 0b001#3) ∧
  (∀ n, recordKind (Report.ioError n).word = 0b010#3) ∧
  recordKind Report.eos.word = 0b011#3 ∧
  (∀ r : Report, readRecord r.word = some r) ∧
  ∀ w : RecordWord, 0x80000000 ≤ w.toNat → readRecord w = none

/-- R19: the consumer converts every READING, whatever its checksum flag, and keeps the flag; the other records give no
reading. -/
def Obligations.EveryReadingIsConverted : Prop :=
  (∀ (ckv : Bool) (b0 : Byte) (raw : RawCount),
    consume (Report.reading ckv b0 raw).word =
      some { rawCount := raw, checksumValid := ckv, mgPerM3 := concentration raw }) ∧
  ∀ n : BitVec 4, consume (Report.incomplete n).word = none ∧ consume (Report.ioError n).word = none ∧
    consume Report.eos.word = none

/-- The consumer's rounding (R18; that it is to nearest, ties to even, is log entry 13's, from general knowledge). For a
quotient `n / d` of magnitude `2 ^ k` in the normal range, whose unit in the last place is `2 ^ (k - 52)`, the binary64 is off
by at most half a unit, and where it is off by exactly half a unit its last bit is 0. -/
def Obligations.RoundingErrorIsAtMostHalfAUnit : Prop :=
  ∀ (n d : Nat) (k : Int), 0 < d → -1022 ≤ k → k ≤ 1022 → (2 : ℚ) ^ k ≤ n / d → (n : ℚ) / d < 2 ^ (k + 1) →
    |binary64Value (roundRatio n d) - n / d| ≤ 2 ^ (k - 53) ∧
    (|binary64Value (roundRatio n d) - n / d| = 2 ^ (k - 53) → (roundRatio n d).getLsbD 0 = false)

/-- R85: a pseudo-instruction is the sequence of words of its expansion: a whole response closed by END, FRAMEC with the
trailer of R140 as its ninth byte, so that its checksum passes. -/
def Obligations.PseudoInstructionsAreResponses : Prop :=
  (∀ bs : List Byte, (Line.frame bs).inputs = (Response.mk bs false).inputs) ∧
  (∀ bs : List Byte, (Line.partialFrame bs).inputs = (Response.mk bs false).inputs) ∧
  Line.empty.inputs = (Response.mk [] false).inputs ∧
  ∀ bs : List Byte, bs.length = 8 →
    ∃ t, (Line.framec bs).inputs = (Response.mk (bs ++ [t]) false).inputs ∧ t = trailer (bs.drop 1) ∧
      frameChecksumOk (bs ++ [t]) = true
end

