-- ==== Sys2Proof/Laws/Memory.lean ====
section
/-!
SUPPORT. The laws of the window as an address space: read after write, the canonical form, and the partial sums over it.
-/

namespace Sys2Proof.Machine

@[simp] theorem Memory.read_empty (i : Nat) : Memory.empty.read i = none := rfl

@[simp] theorem Memory.read_nil (i : Nat) : Memory.read [] i = none := rfl

theorem Memory.empty_wf : Memory.empty.wf := by decide

/-- A read after a write: the value written at its index, the old value everywhere else. -/
@[simp] theorem Memory.read_write (m : Memory) (i j : Nat) (v : Byte) :
    (m.write i v).read j = if j = i then some v else m.read j := by
  induction m with
  | nil => simp [Memory.write, Memory.read, eq_comm]
  | cons c m ih =>
    obtain ⟨a, b⟩ := c
    simp only [Memory.write]
    split
    · simp only [Memory.read]; grind
    · split
      · simp only [Memory.read]; grind
      · simp only [Memory.read, ih]; grind

/-- Where the cells of a written window come from. -/
theorem Memory.mem_write (m : Memory) (i : Nat) (v : Byte) (c : Host.Cell) (h : c ∈ m.write i v) :
    c = (i, v) ∨ c ∈ m := by
  induction m with
  | nil => simpa [Memory.write] using h
  | cons d m ih =>
    obtain ⟨a, b⟩ := d
    simp only [Memory.write] at h
    split at h
    · simpa using h
    · split at h
      · simp only [List.mem_cons] at h ⊢; tauto
      · simp only [List.mem_cons] at h ⊢; tauto

/-- A write at an index of the window keeps the canonical form. -/
theorem Memory.write_wf (m : Memory) (i : Nat) (v : Byte) (hm : m.wf) (hi : i < frameLen) : (m.write i v).wf := by
  refine ⟨?_, fun c hc => ?_⟩
  · have hs := hm.1
    clear hm
    induction m with
    | nil => simp [Memory.write]
    | cons d m ih =>
      obtain ⟨a, b⟩ := d
      rw [List.pairwise_cons] at hs
      simp only [Memory.write]
      split
      · refine List.pairwise_cons.2 ⟨fun c hc => ?_, List.pairwise_cons.2 hs⟩
        rcases List.mem_cons.1 hc with rfl | hc
        · assumption
        · have := hs.1 c hc; simp only at *; omega
      · split
        · refine List.pairwise_cons.2 ⟨fun c hc => ?_, hs.2⟩
          have := hs.1 c hc; simp only at *; omega
        · refine List.pairwise_cons.2 ⟨fun c hc => ?_, ih hs.2⟩
          rcases Memory.mem_write m i v c hc with rfl | hc
          · simp only; omega
          · exact hs.1 c hc
  · rcases Memory.mem_write m i v c hc with rfl | hc
    · exact hi
    · exact hm.2 c hc

/-- A cell that is read is listed. -/
theorem Memory.mem_of_read (m : Memory) (i : Nat) (v : Byte) (h : m.read i = some v) : (i, v) ∈ m := by
  induction m with
  | nil => simp at h
  | cons d m ih =>
    obtain ⟨a, b⟩ := d
    simp only [Memory.read] at h
    split at h
    · simp_all
    · exact List.mem_cons_of_mem _ (ih h)

/-- An index that does not exist has no value in a window in canonical form. -/
theorem Memory.read_eq_none (m : Memory) (i : Nat) (hm : m.wf) (hi : frameLen ≤ i) : m.read i = none := by
  cases h : m.read i with
  | none => rfl
  | some v => have := hm.2 _ (Memory.mem_of_read m i v h); simp only at this; omega

/-- The operations on the window keep its canonical form. -/
theorem writeCell_wf (s t : State) (i : Nat) (v : Byte) (hs : s.win.wf) (h : writeCell s i v = .ok t) : t.win.wf := by
  unfold writeCell at h
  split at h
  · cases h; exact Memory.write_wf _ _ _ hs ‹_›
  · cases h

@[simp] theorem windowSum_zero (m : Memory) : windowSum m 0 = 0 := rfl

/-- The sum below `n` does not depend on the cells at `n` and above. -/
theorem windowSum_congr (m m' : Memory) (n : Nat) (h : ∀ i < n, m.read i = m'.read i) :
    windowSum m n = windowSum m' n := by
  induction n with
  | zero => rfl
  | succ n ih => simp only [windowSum, ih fun i hi => h i (by omega), h n (by omega)]

/-- Accepting the next byte adds it to the sum as the accumulator does (41_checksum_extract.md R130, R131). -/
theorem windowSum_write (m : Memory) (n : Nat) (d : Byte) :
    windowSum (m.write n d) (n + 1) = accStep (windowSum m n) n d := by
  have h : windowSum (m.write n d) n = windowSum m n :=
    windowSum_congr _ _ _ fun i hi => by simp [Nat.ne_of_lt hi]
  simp [windowSum, h]

end Sys2Proof.Machine
end

