-- ==== Sys2Proof/Laws/State.lean ====
section
/-!
SUPPORT. One lemma per field per update of the state, so that no later proof unfolds an update.
-/

namespace Sys2Proof.Machine

/-! ### `emit` -/

@[simp] theorem emit_st (x : Item) (s : State) : (emit x s).st = s.st := rfl
@[simp] theorem emit_cnt (x : Item) (s : State) : (emit x s).cnt = s.cnt := rfl
@[simp] theorem emit_acc (x : Item) (s : State) : (emit x s).acc = s.acc := rfl
@[simp] theorem emit_win (x : Item) (s : State) : (emit x s).win = s.win := rfl
@[simp] theorem emit_tpend (x : Item) (s : State) : (emit x s).tpend = s.tpend := rfl
@[simp] theorem emit_viol (x : Item) (s : State) : (emit x s).viol = s.viol := rfl
@[simp] theorem emit_vcause (x : Item) (s : State) : (emit x s).vcause = s.vcause := rfl
@[simp] theorem emit_trace (x : Item) (s : State) : (emit x s).trace = s.trace ++ [x] := rfl
@[simp] theorem emit_inputs (x : Item) (s : State) : (emit x s).inputs = s.inputs := rfl

/-! ### `emitReport` -/

@[simp] theorem emitReport_st (r : Report) (s : State) : (emitReport r s).st = s.st := rfl
@[simp] theorem emitReport_cnt (r : Report) (s : State) : (emitReport r s).cnt = s.cnt := rfl
@[simp] theorem emitReport_acc (r : Report) (s : State) : (emitReport r s).acc = s.acc := rfl
@[simp] theorem emitReport_win (r : Report) (s : State) : (emitReport r s).win = s.win := rfl
@[simp] theorem emitReport_tpend (r : Report) (s : State) : (emitReport r s).tpend = s.tpend := rfl
@[simp] theorem emitReport_viol (r : Report) (s : State) : (emitReport r s).viol = s.viol := rfl
@[simp] theorem emitReport_vcause (r : Report) (s : State) : (emitReport r s).vcause = s.vcause := rfl
@[simp] theorem emitReport_trace (r : Report) (s : State) : (emitReport r s).trace = s.trace ++ [.record r.word] := rfl
@[simp] theorem emitReport_inputs (r : Report) (s : State) : (emitReport r s).inputs = s.inputs := rfl

/-! ### `raiseViolation` -/

@[simp] theorem raiseViolation_st (c : Cause) (s : State) : (raiseViolation c s).st = s.st := rfl
@[simp] theorem raiseViolation_cnt (c : Cause) (s : State) : (raiseViolation c s).cnt = s.cnt := rfl
@[simp] theorem raiseViolation_acc (c : Cause) (s : State) : (raiseViolation c s).acc = s.acc := rfl
@[simp] theorem raiseViolation_win (c : Cause) (s : State) : (raiseViolation c s).win = s.win := rfl
@[simp] theorem raiseViolation_tpend (c : Cause) (s : State) : (raiseViolation c s).tpend = s.tpend := rfl
@[simp] theorem raiseViolation_viol (c : Cause) (s : State) : (raiseViolation c s).viol = true := rfl
@[simp] theorem raiseViolation_vcause (c : Cause) (s : State) : (raiseViolation c s).vcause = (if s.viol then s.vcause else c) := rfl
@[simp] theorem raiseViolation_trace (c : Cause) (s : State) : (raiseViolation c s).trace = s.trace := rfl
@[simp] theorem raiseViolation_inputs (c : Cause) (s : State) : (raiseViolation c s).inputs = s.inputs := rfl

/-! ### `applyReset` -/

@[simp] theorem applyReset_st (s : State) : (applyReset s).st = .idle := rfl
@[simp] theorem applyReset_cnt (s : State) : (applyReset s).cnt = 0 := rfl
@[simp] theorem applyReset_acc (s : State) : (applyReset s).acc = 0 := rfl
@[simp] theorem applyReset_win (s : State) : (applyReset s).win = Memory.empty := rfl
@[simp] theorem applyReset_tpend (s : State) : (applyReset s).tpend = false := rfl
@[simp] theorem applyReset_viol (s : State) : (applyReset s).viol = false := rfl
@[simp] theorem applyReset_vcause (s : State) : (applyReset s).vcause = .none := rfl
@[simp] theorem applyReset_trace (s : State) : (applyReset s).trace = s.trace := rfl
@[simp] theorem applyReset_inputs (s : State) : (applyReset s).inputs = s.inputs := rfl

/-! ### `discardResponse` -/

@[simp] theorem discardResponse_st (s : State) : (discardResponse s).st = s.st := rfl
@[simp] theorem discardResponse_cnt (s : State) : (discardResponse s).cnt = 0 := rfl
@[simp] theorem discardResponse_acc (s : State) : (discardResponse s).acc = 0 := rfl
@[simp] theorem discardResponse_win (s : State) : (discardResponse s).win = Memory.empty := rfl
@[simp] theorem discardResponse_tpend (s : State) : (discardResponse s).tpend = s.tpend := rfl
@[simp] theorem discardResponse_viol (s : State) : (discardResponse s).viol = s.viol := rfl
@[simp] theorem discardResponse_vcause (s : State) : (discardResponse s).vcause = s.vcause := rfl
@[simp] theorem discardResponse_trace (s : State) : (discardResponse s).trace = s.trace := rfl
@[simp] theorem discardResponse_inputs (s : State) : (discardResponse s).inputs = s.inputs := rfl

/-! ### `issueRequest` -/

@[simp] theorem issueRequest_st (s : State) : (issueRequest s).st = s.st := rfl
@[simp] theorem issueRequest_cnt (s : State) : (issueRequest s).cnt = 0 := rfl
@[simp] theorem issueRequest_acc (s : State) : (issueRequest s).acc = 0 := rfl
@[simp] theorem issueRequest_win (s : State) : (issueRequest s).win = Memory.empty := rfl
@[simp] theorem issueRequest_tpend (s : State) : (issueRequest s).tpend = s.tpend := rfl
@[simp] theorem issueRequest_viol (s : State) : (issueRequest s).viol = s.viol := rfl
@[simp] theorem issueRequest_vcause (s : State) : (issueRequest s).vcause = s.vcause := rfl
@[simp] theorem issueRequest_trace (s : State) : (issueRequest s).trace = s.trace ++ [.req requestWord] := rfl
@[simp] theorem issueRequest_inputs (s : State) : (issueRequest s).inputs = s.inputs := rfl

/-! ### `startCycle` -/

@[simp] theorem startCycle_st (s : State) : (startCycle s).st = .wait := rfl
@[simp] theorem startCycle_cnt (s : State) : (startCycle s).cnt = 0 := rfl
@[simp] theorem startCycle_acc (s : State) : (startCycle s).acc = 0 := rfl
@[simp] theorem startCycle_win (s : State) : (startCycle s).win = Memory.empty := rfl
@[simp] theorem startCycle_tpend (s : State) : (startCycle s).tpend = s.tpend := rfl
@[simp] theorem startCycle_viol (s : State) : (startCycle s).viol = s.viol := rfl
@[simp] theorem startCycle_vcause (s : State) : (startCycle s).vcause = s.vcause := rfl
@[simp] theorem startCycle_trace (s : State) : (startCycle s).trace = s.trace ++ [.req requestWord] := rfl
@[simp] theorem startCycle_inputs (s : State) : (startCycle s).inputs = s.inputs := rfl

/-! ### `endCycle`, by the pending trigger -/

theorem endCycle_of_tpend (s : State) (h : s.tpend = true) :
    endCycle s = startCycle { s with tpend := false } := by simp [endCycle, h]

theorem endCycle_of_no_tpend (s : State) (h : s.tpend = false) :
    endCycle s = discardResponse { s with st := .idle } := by simp [endCycle, h]

@[simp] theorem endCycle_st (s : State) : (endCycle s).st = if s.tpend then .wait else .idle := by
  unfold endCycle; split <;> rfl

@[simp] theorem endCycle_cnt (s : State) : (endCycle s).cnt = 0 := by
  unfold endCycle; split <;> rfl

@[simp] theorem endCycle_acc (s : State) : (endCycle s).acc = 0 := by
  unfold endCycle; split <;> rfl

@[simp] theorem endCycle_win (s : State) : (endCycle s).win = Memory.empty := by
  unfold endCycle; split <;> rfl

@[simp] theorem endCycle_tpend (s : State) : (endCycle s).tpend = false := by
  unfold endCycle; split <;> simp_all

@[simp] theorem endCycle_viol (s : State) : (endCycle s).viol = s.viol := by
  unfold endCycle; split <;> rfl

@[simp] theorem endCycle_vcause (s : State) : (endCycle s).vcause = s.vcause := by
  unfold endCycle; split <;> rfl

@[simp] theorem endCycle_inputs (s : State) : (endCycle s).inputs = s.inputs := by
  unfold endCycle; split <;> rfl

@[simp] theorem endCycle_trace (s : State) :
    (endCycle s).trace = s.trace ++ if s.tpend then [.req requestWord] else [] := by
  unfold endCycle; split <;> simp

end Sys2Proof.Machine
end

