-- ==== Sys2Proof/Laws/Ops.lean ====
section
/-!
SUPPORT. One lemma per shared operation that says everything it can do, and one inversion lemma per event and for the step.
-/

namespace Sys2Proof.Machine

/-- A window read succeeds exactly at an existing index whose cell has a value. -/
theorem readCell_ok (s : State) (i : Nat) (b : Byte) :
    readCell s i = .ok b ↔ i < frameLen ∧ s.win.read i = some b := by
  unfold readCell; split
  · cases h : s.win.read i <;> simp_all
  · simp_all

theorem readCell_error (s : State) (i : Nat) (f : Fault) :
    readCell s i = .error f ↔
      (i < frameLen ∧ s.win.read i = none ∧ f = .unwrittenCell i) ∨ (frameLen ≤ i ∧ f = .noSuchCell i) := by
  unfold readCell; split
  · cases h : s.win.read i <;> simp_all [eq_comm (a := f)]
  · simp_all [eq_comm (a := f)]

/-- A window write succeeds exactly at an existing index, and changes the window only. -/
theorem writeCell_ok (s t : State) (i : Nat) (v : Byte) :
    writeCell s i v = .ok t ↔ i < frameLen ∧ t = { s with win := s.win.write i v } := by
  unfold writeCell; split <;> simp_all [eq_comm]

theorem writeCell_error (s : State) (i : Nat) (v : Byte) (f : Fault) :
    writeCell s i v = .error f ↔ frameLen ≤ i ∧ f = .noSuchCell i := by
  unfold writeCell; split <;> simp_all [eq_comm]

/-- The decode of a window whose decoded cells all have values. -/
theorem decodeFrame_of_reads (s : State) (t hi lo b0 : Byte) (h8 : s.win.read ckIdx = some t)
    (h4 : s.win.read rawHi = some hi) (h5 : s.win.read rawLo = some lo) (h0 : s.win.read startIdx = some b0) :
    decodeFrame s = .ok (.reading (validateChecksum s.acc t) b0 (extractRawCount hi lo)) := by
  have e8 := (readCell_ok s ckIdx t).2 ⟨by decide, h8⟩
  have e4 := (readCell_ok s rawHi hi).2 ⟨by decide, h4⟩
  have e5 := (readCell_ok s rawLo lo).2 ⟨by decide, h5⟩
  have e0 := (readCell_ok s startIdx b0).2 ⟨by decide, h0⟩
  simp only [decodeFrame, e8, e4, e5, e0]

/-- A decode fails exactly where one of its cells has no value. -/
theorem decodeFrame_error (s : State) (f : Fault) (h : decodeFrame s = .error f) :
    ∃ a ∈ [ckIdx, rawHi, rawLo, startIdx], s.win.read a = none ∧ f = .unwrittenCell a := by
  unfold decodeFrame at h
  split at h <;> cases h
  · exact ⟨ckIdx, by simp, by have := (readCell_error _ _ _).1 ‹_›; simp_all⟩
  · exact ⟨rawHi, by simp, by have := (readCell_error _ _ _).1 ‹_›; simp_all⟩
  · exact ⟨rawLo, by simp, by have := (readCell_error _ _ _).1 ‹_›; simp_all⟩
  · exact ⟨startIdx, by simp, by have := (readCell_error _ _ _).1 ‹_›; simp_all⟩

/-- Everything a successful decode says. -/
theorem decodeFrame_ok (s : State) (r : Report) (h : decodeFrame s = .ok r) :
    ∃ t hi lo b0, s.win.read ckIdx = some t ∧ s.win.read rawHi = some hi ∧ s.win.read rawLo = some lo ∧
      s.win.read startIdx = some b0 ∧ r = .reading (validateChecksum s.acc t) b0 (extractRawCount hi lo) := by
  unfold decodeFrame at h
  split at h <;> simp_all only [readCell_ok, Except.ok.injEq, reduceCtorEq]
  exact ⟨_, _, _, _, rfl, rfl, rfl, rfl, h.symm⟩

/-- BUSY is `st = WAIT` (10_state.md R31). -/
@[simp] theorem busy_eq_true (s : State) : busy s = true ↔ s.st = .wait := by
  unfold busy; cases s.st <;> simp

theorem busy_idle (s : State) (h : s.st = .idle) : busy s = false := by simp [busy, h]

theorem busy_wait (s : State) (h : s.st = .wait) : busy s = true := by simp [busy, h]

/-! ### The events, one equation per case -/

theorem execByte_idle (d : Byte) (s : State) (h : s.st = .idle) :
    execByte d s = .next (raiseViolation .byteNoReq s) := by simp [execByte, h]

theorem execByte_full (d : Byte) (s : State) (h : s.st = .wait) (hc : s.cnt.toNat = frameLen) :
    execByte d s = .next (raiseViolation .overrun s) := by
  simp only [execByte, h, hc, if_pos]

theorem execByte_accept (d : Byte) (s : State) (h : s.st = .wait) (hc : s.cnt.toNat < frameLen) :
    execByte d s = .next { s with
      win := s.win.write s.cnt.toNat d, acc := accStep s.acc s.cnt.toNat d, cnt := s.cnt + 1 } := by
  simp only [execByte, h, Nat.ne_of_lt hc, if_false, (writeCell_ok s _ _ d).2 ⟨hc, rfl⟩]

theorem execByte_noCell (d : Byte) (s : State) (h : s.st = .wait) (hc : frameLen < s.cnt.toNat) :
    execByte d s = .fault (.noSuchCell s.cnt.toNat) := by
  simp only [execByte, h, Nat.ne_of_gt hc, if_false, (writeCell_error s _ d _).2 ⟨Nat.le_of_lt hc, rfl⟩]

theorem execEndResp_idle (s : State) (h : s.st = .idle) :
    execEndResp s = .next (raiseViolation .endNoReq s) := by simp [execEndResp, h]

theorem execEndResp_empty (s : State) (h : s.st = .wait) (hc : s.cnt = 0) :
    execEndResp s = .next (endCycle (emitReport .eos s)) := by
  simp only [execEndResp, h, hc, if_pos]

theorem execEndResp_partial (s : State) (h : s.st = .wait) (h0 : s.cnt ≠ 0) (hc : s.cnt.toNat < frameLen) :
    execEndResp s = .next (issueRequest (emitReport (.incomplete s.cnt) s)) := by
  simp only [execEndResp, h, h0, hc, if_true, if_false]

theorem execEndResp_full (s : State) (r : Report) (h : s.st = .wait) (hc : frameLen ≤ s.cnt.toNat)
    (hr : decodeFrame s = .ok r) : execEndResp s = .next (issueRequest (emitReport r s)) := by
  have h0 : s.cnt ≠ 0 := by rintro h0; simp [h0] at hc
  simp only [execEndResp, h, h0, Nat.not_lt.2 hc, if_false, hr]

theorem execEndResp_missing (s : State) (f : Fault) (h : s.st = .wait) (hc : frameLen ≤ s.cnt.toNat)
    (hr : decodeFrame s = .error f) : execEndResp s = .fault f := by
  have h0 : s.cnt ≠ 0 := by rintro h0; simp [h0] at hc
  simp only [execEndResp, h, h0, Nat.not_lt.2 hc, if_false, hr]

theorem execErr_idle (s : State) (h : s.st = .idle) :
    execErr s = .next (raiseViolation .errNoReq s) := by simp [execErr, h]

theorem execErr_wait (s : State) (h : s.st = .wait) :
    execErr s = .next (endCycle (emitReport (.ioError s.cnt) s)) := by simp [execErr, h]

theorem execTrig_idle (s : State) (h : s.st = .idle) : execTrig s = .next (startCycle s) := by simp [execTrig, h]

theorem execTrig_wait (s : State) (h : s.st = .wait) : execTrig s = .next { s with tpend := true } := by
  simp [execTrig, h]

/-! ### Inversion -/

/-- BYTE, by case (40_frame_read.md R101 to R103). -/
theorem execByte_next (d : Byte) (s t : State) (h : execByte d s = .next t) :
    (s.st = .idle ∧ t = raiseViolation .byteNoReq s) ∨
    (s.st = .wait ∧ s.cnt.toNat = frameLen ∧ t = raiseViolation .overrun s) ∨
    (s.st = .wait ∧ s.cnt.toNat < frameLen ∧
      t = { s with win := s.win.write s.cnt.toNat d, acc := accStep s.acc s.cnt.toNat d, cnt := s.cnt + 1 }) := by
  unfold execByte at h
  split at h
  · cases h; exact .inl ⟨‹_›, rfl⟩
  · split at h
    · cases h; exact .inr (.inl ⟨‹_›, ‹_›, rfl⟩)
    · split at h
      · rename_i s' hw
        obtain ⟨hlt, rfl⟩ := (writeCell_ok _ _ _ _).1 hw
        cases h; exact .inr (.inr ⟨‹_›, hlt, rfl⟩)
      · cases h

/-- END, by case (R104 to R108). -/
theorem execEndResp_next (s t : State) (h : execEndResp s = .next t) :
    (s.st = .idle ∧ t = raiseViolation .endNoReq s) ∨
    (s.st = .wait ∧ s.cnt = 0 ∧ t = endCycle (emitReport .eos s)) ∨
    (s.st = .wait ∧ s.cnt ≠ 0 ∧ s.cnt.toNat < frameLen ∧ t = issueRequest (emitReport (.incomplete s.cnt) s)) ∨
    (s.st = .wait ∧ s.cnt ≠ 0 ∧ frameLen ≤ s.cnt.toNat ∧
      ∃ r, decodeFrame s = .ok r ∧ t = issueRequest (emitReport r s)) := by
  unfold execEndResp at h
  split at h
  · cases h; exact .inl ⟨‹_›, rfl⟩
  · split at h
    · cases h; exact .inr (.inl ⟨‹_›, ‹_›, rfl⟩)
    · split at h
      · cases h; exact .inr (.inr (.inl ⟨‹_›, ‹_›, ‹_›, rfl⟩))
      · split at h
        · cases h; exact .inr (.inr (.inr ⟨‹_›, ‹_›, by omega, _, ‹_›, rfl⟩))
        · cases h

/-- ERR, by case (R109 to R111). -/
theorem execErr_next (s t : State) (h : execErr s = .next t) :
    (s.st = .idle ∧ t = raiseViolation .errNoReq s) ∨
    (s.st = .wait ∧ t = endCycle (emitReport (.ioError s.cnt) s)) := by
  unfold execErr at h
  split at h <;> cases h
  · exact .inl ⟨‹_›, rfl⟩
  · exact .inr ⟨‹_›, rfl⟩

/-- TRIG, by case (42_cycle_control.md R151). -/
theorem execTrig_next (s t : State) (h : execTrig s = .next t) :
    (s.st = .idle ∧ t = startCycle s) ∨ (s.st = .wait ∧ t = { s with tpend := true }) := by
  unfold execTrig at h
  split at h <;> cases h
  · exact .inl ⟨‹_›, rfl⟩
  · exact .inr ⟨‹_›, rfl⟩

/-- A step, by case (00_scope.md R13, 30_encoding.md R75, 70_reset_and_hazards.md R201). -/
theorem step_next (s t : State) (h : step s = .next t) :
    (∃ off rest, s.inputs = .reset off :: rest ∧ t = applyReset { s with inputs := rest }) ∨
    (∃ w rest c, s.inputs = .event w :: rest ∧ decode w = .reserved c ∧
      t = raiseViolation (reservedCause c) { s with inputs := rest }) ∨
    (∃ w rest i, s.inputs = .event w :: rest ∧ decode w = .event i ∧ exec i { s with inputs := rest } = .next t) := by
  unfold step takeInput at h
  cases hi : s.inputs with
  | nil => simp [hi] at h
  | cons x rest =>
    cases x with
    | reset off => simp only [hi] at h; cases h; exact .inl ⟨_, _, rfl, rfl⟩
    | event w =>
      simp only [hi, stepWord] at h
      cases hd : decode w with
      | reserved c => simp only [hd] at h; cases h; exact .inr (.inl ⟨_, _, _, rfl, hd, rfl⟩)
      | event i => simp only [hd] at h; exact .inr (.inr ⟨_, _, _, rfl, hd, h⟩)

/-- A step whose next input is a word of an event runs that event. -/
theorem step_event (s : State) (w : EventWord) (rest : List Input) (i : Instr) (hs : s.inputs = .event w :: rest)
    (hd : decode w = .event i) : step s = exec i { s with inputs := rest } := by
  simp [step, takeInput, hs, stepWord, hd]

/-- A step whose next input is a reserved word raises its violation. -/
theorem step_reserved (s : State) (w : EventWord) (rest : List Input) (c : ReservedClass)
    (hs : s.inputs = .event w :: rest) (hd : decode w = .reserved c) :
    step s = .next (raiseViolation (reservedCause c) { s with inputs := rest }) := by
  simp [step, takeInput, hs, stepWord, hd]

/-- A step whose next input is reset. -/
theorem step_reset (s : State) (off : Option EventWord) (rest : List Input) (hs : s.inputs = .reset off :: rest) :
    step s = .next (applyReset { s with inputs := rest }) := by
  simp [step, takeInput, hs]

/-- A step with no input offered. -/
theorem step_noInput (s : State) (hs : s.inputs = []) : step s = .refused .noInput := by
  simp [step, takeInput, hs]

end Sys2Proof.Machine
end

