-- ==== Sys2Proof/Laws/PerInstr.lean ====
section
/-!
SUPPORT. Statements made per instruction: `EventEncoding`, that an event is well formed and its word decodes to it
(30_encoding.md R71, R75, R86); and the laws of a word's two fields (R70).
-/

namespace Sys2Proof

/-- The opcode of a word put together from an opcode and data. -/
theorem eventOp_append (op : BitVec 3) (d : Byte) : eventOp (op ++ d : BitVec (3 + 8)) = op := by
  refine BitVec.eq_of_getLsbD_eq fun i hi => ?_
  unfold eventOp
  rw [BitVec.getLsbD_extractLsb', BitVec.getLsbD_append]
  simp [hi]

/-- The data of a word put together from an opcode and data. -/
theorem eventData_append (op : BitVec 3) (d : Byte) : eventData (op ++ d : BitVec (3 + 8)) = d := by
  refine BitVec.eq_of_getLsbD_eq fun i hi => ?_
  unfold eventData
  rw [BitVec.getLsbD_extractLsb', BitVec.getLsbD_append]
  simp [hi]

/-- A word is its two fields (R70). -/
theorem eventWord_eq_fields (w : EventWord) : w = (eventOp w ++ eventData w : BitVec (3 + 8)) := by
  refine BitVec.eq_of_getLsbD_eq fun i hi => ?_
  unfold eventOp eventData
  rw [BitVec.getLsbD_append, BitVec.getLsbD_extractLsb', BitVec.getLsbD_extractLsb']
  by_cases h : i < 8
  · simp [h]
  · simp [h, show i - 8 < 3 by omega, show 8 + (i - 8) = i by omega]

/-- A word with BYTE's opcode decodes to BYTE of its data, whatever the data (R71, R72). -/
theorem decode_byte (w : EventWord) (h : eventOp w = 0b000#3) : decode w = .event (.byte (eventData w)) := by
  unfold decode
  rw [h]
  simp [eventOfOp]

namespace Laws.EventEncoding

def Statement (i : Instr) : Prop := i.wellFormed = true ∧ decode (encode i) = .event i

theorem byte (d : Byte) : Statement (.byte d) := by
  refine ⟨rfl, ?_⟩
  rw [decode_byte (encode (.byte d)) (eventOp_append 0b000#3 d)]
  exact congrArg (fun x => Decoded.event (.byte x)) (eventData_append 0b000#3 d)

theorem endResp : Statement .endResp := ⟨rfl, by decide⟩

theorem err : Statement .err := ⟨rfl, by decide⟩

theorem trig : Statement .trig := ⟨rfl, by decide⟩

end Laws.EventEncoding

end Sys2Proof
end

