-- ==== Sys2Proof/Laws/Run.lean ====
section
/-!
SUPPORT. Runs, one step at a time.
-/

namespace Sys2Proof.Machine

@[simp] theorem runSteps_zero (s : State) : runSteps 0 s = .next s := rfl

/-- A run takes its first step and goes on from the next state. -/
theorem runSteps_succ_of_step (n : Nat) (s t : State) (h : step s = .next t) :
    runSteps (n + 1) s = runSteps n t := by
  have h' : Sys2Proof.core.step s = .next t := h
  refine (Host.Core.run.eq_2 Sys2Proof.core s n).trans ?_
  rw [h']
  rfl

/-- A claim about a run whose end is known is one about that state, where it may be final. -/
theorem runClaim_of_next (n : Nat) (s t : State) (claim : State → Prop) (h : runSteps n s = .next t) :
    RunClaim n s claim ↔ (t.mayBeFinal = true → claim t) := by
  refine ⟨fun hc => hc t h, fun hc u hu => ?_⟩
  rw [h] at hu
  cases hu
  exact hc

/-- A claim about a run gives every weaker one. -/
theorem RunClaim.mono (n : Nat) (s : State) (p q : State → Prop) (hp : RunClaim n s p) (h : ∀ t, p t → q t) :
    RunClaim n s q := fun t ht hf => h t (hp t ht hf)

@[simp] theorem mayBeFinal_eq_true (s : State) : s.mayBeFinal = true ↔ s.viol = false := by
  simp [State.mayBeFinal, State.faulted]

end Sys2Proof.Machine
end

