-- ==== Sys2Proof/Tests/Slice0.lean ====
section
/-!
SUPPORT. Tests: expected values are from 95_test_vectors.md (the section is named) or worked out from the rule named. For
every obligation with hypotheses, a witness `witness_<Name>` shows concrete states and operands that meet them, one for
each clause.
-/

namespace Sys2Proof.Tests

open Sys2Proof Sys2Proof.Machine

/-! ### Small states -/

/-- The next state of an outcome. -/
def after : Result → Option State
  | .next t    => some t
  | .fault _   => none
  | .refused _ => none

/-- A window that holds a run of bytes from an index on. -/
def cells : Nat → List Byte → Memory
  | _, []      => []
  | i, b :: bs => (i, b) :: cells (i + 1) bs

/-- After TRIG and these bytes of the response. -/
def receiving (bs : List Byte) : State :=
  { State.reset with
    st := .wait, cnt := BitVec.ofNat 4 bs.length, acc := windowSum (cells 0 bs) bs.length, win := cells 0 bs,
    trace := [.req 9#4] }

/-- The frame of 95_test_vectors.md L1.6. -/
def goodFrame : List Byte := [0xFF, 0x00, 0x00, 0x00, 0x03, 0x41, 0x00, 0x00, 0xBC]

/-- The same frame with a wrong trailer (L1.7). -/
def badFrame : List Byte := [0xFF, 0x00, 0x00, 0x00, 0x03, 0x41, 0x00, 0x00, 0xBD]

/-- WAIT with so many bytes counted and a sum (2.2). -/
def counting (cnt : BitVec 4) (acc : Byte) : State := { State.reset with st := .wait, cnt := cnt, acc := acc }

theorem cells_index_ge (i : Nat) (bs : List Byte) (c : Host.Cell) (h : c ∈ cells i bs) : i ≤ c.1 := by
  induction bs generalizing i with
  | nil => simp [cells] at h
  | cons b bs ih =>
    rcases List.mem_cons.1 h with rfl | h
    · exact Nat.le_refl _
    · exact Nat.le_of_succ_le (ih (i + 1) h)

theorem cells_index_lt (i : Nat) (bs : List Byte) (c : Host.Cell) (h : c ∈ cells i bs) : c.1 < i + bs.length := by
  induction bs generalizing i with
  | nil => simp [cells] at h
  | cons b bs ih =>
    rw [List.length_cons]
    rcases List.mem_cons.1 h with rfl | h
    · simp only; omega
    · have := ih (i + 1) h; omega

theorem cells_wf (bs : List Byte) (h : bs.length ≤ 9) : (cells 0 bs).wf := by
  refine ⟨?_, fun c hc => ?_⟩
  · generalize 0 = i
    clear h
    induction bs generalizing i with
    | nil => exact List.Pairwise.nil
    | cons b bs ih => exact List.pairwise_cons.2 ⟨fun c hc => cells_index_ge (i + 1) bs c hc, ih (i + 1)⟩
  · have := cells_index_lt 0 bs c hc; simp only [frameLen_eq]; omega

theorem read_cells (i j : Nat) (bs : List Byte) : (cells i bs).read j = if i ≤ j then bs[j - i]? else none := by
  induction bs generalizing i with
  | nil => simp [cells]
  | cons b bs ih =>
    simp only [cells, Memory.read, ih]
    rcases Nat.lt_trichotomy i j with h | h | h
    · rw [if_neg (Nat.ne_of_lt h), if_pos (show i + 1 ≤ j from h), if_pos (Nat.le_of_lt h), show j - i = (j - (i + 1)) + 1 by omega]; rfl
    · subst h; simp
    · rw [if_neg (Nat.ne_of_gt h), if_neg (by omega), if_neg (by omega)]

/-- The states of `receiving` satisfy the invariant. -/
theorem receiving_inv (bs : List Byte) (h : bs.length ≤ 9) : StateInv (receiving bs) where
  winWf := cells_wf bs h
  cntBound := by simp only [receiving, BitVec.toNat_ofNat, frameLen_eq]; omega
  idleClear := by simp [receiving]
  waitCells := fun _ i => by
    have e : bs.length % 16 = bs.length := Nat.mod_eq_of_lt (by omega)
    simp [receiving, read_cells, e]
  waitSum := fun _ => by
    have e : bs.length % 2 ^ 4 = bs.length := Nat.mod_eq_of_lt (by omega)
    simp only [receiving, BitVec.toNat_ofNat, e]
  idleTpend := by simp [receiving]
  causeNone := by simp [receiving, State.reset]
  itemsOk := by simp [receiving, Item.allowed]

/-- A pending trigger and inputs offered do not disturb the invariant in WAIT. -/
theorem receiving_inv' (bs : List Byte) (h : bs.length ≤ 9) (p : Bool) (ins : List Input) :
    StateInv { receiving bs with tpend := p, inputs := ins } :=
  let i := receiving_inv bs h
  { winWf := i.winWf, cntBound := i.cntBound, idleClear := by simp [receiving], waitCells := i.waitCells,
    waitSum := i.waitSum, idleTpend := by simp [receiving], causeNone := i.causeNone, itemsOk := i.itemsOk }

theorem start_inv (ins : List Input) : StateInv (runStart ins) where
  winWf := Memory.empty_wf
  cntBound := Nat.zero_le _
  idleClear := fun _ => ⟨rfl, rfl, fun _ => rfl⟩
  waitCells := fun h => by cases h
  waitSum := fun h => by cases h
  idleTpend := fun _ => rfl
  causeNone := by simp [runStart, State.reset]
  itemsOk := by simp [runStart, State.reset]

/-! ### Decoding: words written bit by bit from R70 and R71 -/

theorem test_decode_byte : decode 0b000_10111100#11 = .event (.byte 0xBC) := by decide
theorem test_decode_byte_zero : decode 0b000_00000000#11 = .event (.byte 0x00) := by decide
theorem test_decode_end : decode 0b001_00000000#11 = .event .endResp := by decide
theorem test_decode_err : decode 0b010_00000000#11 = .event .err := by decide
theorem test_decode_trig : decode 0b011_00000000#11 = .event .trig := by decide

/-- 95_test_vectors.md 2.1, the reserved words. -/
theorem test_decode_reserved_data :
    decode 0b001_00000001#11 = .reserved .reservedData ∧ decode 0x1FF#11 = .reserved .reservedData ∧
    decode 0b010_10000000#11 = .reserved .reservedData ∧ decode 0x3FF#11 = .reserved .reservedData := by decide

theorem test_decode_reserved_op :
    decode 0b100_00000000#11 = .reserved .reservedOp ∧ decode 0x4FF#11 = .reserved .reservedOp ∧
    decode 0x7FF#11 = .reserved .reservedOp := by decide

/-- R86. -/
theorem test_encode :
    encode (.byte 0xBC) = 0x0BC#11 ∧ encode .endResp = 0x100#11 ∧ encode .err = 0x200#11 ∧ encode .trig = 0x300#11 := by
  decide

/-- R71, R73, R74 and log entry 3. -/
theorem test_table_words :
    decodeTableWord 16 0x0FF = some (.byte 0xFF) ∧ decodeTableWord 16 0x300 = some .trig ∧
    decodeTableWord 16 0x101 = none ∧ decodeTableWord 16 0x400 = none ∧ decodeTableWord 16 0x800 = none := by decide

/-! ### Well-formedness: what each check refuses -/

theorem test_wf_refuses_reserved_op : (EventFields.mk 0b100 0x00).opDefined = false := by decide
theorem test_wf_refuses_reserved_data : (EventFields.mk 0b001 0x01).dataAllowed = false := by decide
theorem test_wf_fields :
    (EventFields.mk 0b111 0x00).wellFormed = false ∧ (EventFields.mk 0b011 0xFF).wellFormed = false ∧
    (EventFields.mk 0b000 0xFF).wellFormed = true ∧ (EventFields.mk 0b011 0x00).wellFormed = true := by decide

/-- R9: a layout is refused for each constraint it breaks. -/
theorem test_layout_refused :
    ∀ l ∈ [Layout.mk 0 0 1 7 4 5 8, .mk 9 0 8 7 4 5 0, .mk 9 0 1 9 4 5 0, .mk 9 0 1 7 9 5 8, .mk 9 0 1 7 4 9 8,
      .mk 9 0 1 7 4 5 9, .mk 9 9 1 7 4 5 8, .mk 9 0 1 7 4 5 7], ¬ l.Ok := by decide

/-- R85: the operand counts of the pseudo-instructions. -/
theorem test_wf_lines :
    (Line.frame (List.replicate 8 0)).wellFormed = false ∧ (Line.frame goodFrame).wellFormed = true ∧
    (Line.framec goodFrame).wellFormed = false ∧ (Line.framec (List.replicate 8 0)).wellFormed = true ∧
    (Line.partialFrame []).wellFormed = false ∧ (Line.partialFrame goodFrame).wellFormed = false ∧
    (Line.partialFrame [0]).wellFormed = true ∧ (Line.partialFrame (List.replicate 8 0)).wellFormed = true := by decide

/-! ### BYTE (95_test_vectors.md 2.2) -/

/-- The carry out of the sum is dropped. -/
theorem test_byte_sum_wraps :
    (after (exec (.byte 0x01) (counting 2 0xFF))).map (fun t => (t.cnt, t.acc, t.win.read 2)) =
      some (3#4, 0x00#8, some 0x01#8) := by decide

/-- The trailer is stored but not summed, and byte 7 is the last one summed. -/
theorem test_byte_trailer_not_summed :
    (after (exec (.byte 0xBC) (counting 8 0x44))).map (fun t => (t.cnt, t.acc, t.win.read 8)) =
      some (9#4, 0x44#8, some 0xBC#8) ∧
    (after (exec (.byte 0xF0) (counting 7 0x10))).map (fun t => (t.cnt, t.acc)) = some (8#4, 0x00#8) := by decide

/-! ### END (2.3) -/

/-- A full frame, with a good and with a wrong trailer. -/
theorem test_end_reading :
    (after (exec .endResp (receiving goodFrame))).map State.trace =
      some [.req 9#4, .record 0x01FF0341#32, .req 9#4] ∧
    (after (exec .endResp (receiving badFrame))).map State.trace =
      some [.req 9#4, .record 0x00FF0341#32, .req 9#4] := by decide

/-- EOS with a pending trigger, and 8 bytes. -/
theorem test_end_eos_and_partial :
    (after (exec .endResp { receiving [] with tpend := true })).map (fun t => (t.trace, t.st, t.tpend)) =
      some ([.req 9#4, .record 0x60000000#32, .req 9#4], .wait, false) ∧
    (after (exec .endResp (receiving (goodFrame.take 8)))).map (fun t => (t.trace, t.st, t.cnt)) =
      some ([.req 9#4, .record 0x20000008#32, .req 9#4], .wait, 0#4) := by decide

/-! ### ERR (2.4) -/

theorem test_err_after_nine_bytes :
    (after (exec .err (receiving goodFrame))).map (fun t => (t.trace, t.st)) =
      some ([.req 9#4, .record 0x40000009#32], .idle) := by decide

theorem test_err_with_pending_trigger :
    (after (exec .err { receiving [0x01] with tpend := true })).map (fun t => (t.trace, t.st, t.cnt, t.tpend)) =
      some ([.req 9#4, .record 0x40000001#32, .req 9#4], .wait, 0#4, false) := by decide

/-! ### TRIG (2.7) -/

theorem test_trig_from_reset :
    (after (exec .trig State.reset)).map (fun t => (t.trace, statusWord t)) = some ([.req 9#4], 0x00010#18) := by decide

theorem test_trig_in_wait :
    after (exec .trig (receiving (goodFrame.take 5))) = some { receiving (goodFrame.take 5) with tpend := true } := by
  decide

/-! ### Violations, reset and STATUS (2.2 to 2.4, 2.8) -/

theorem test_status_after_stray_byte :
    (after (exec (.byte 0x55) State.reset)).map statusWord = some 0x000C0#18 := by decide

theorem test_status_before_end : statusWord (receiving goodFrame) = 0x11019#18 := by decide

theorem test_reset_in_wait :
    statusWord { receiving (goodFrame.take 5) with tpend := true } = 0x00C35#18 ∧
    (after (step { receiving (goodFrame.take 5) with tpend := true, inputs := [.reset (some 0x300#11)] })).map
      (fun t => (t.trace, statusWord t, t.inputs)) = some ([.req 9#4], 0x00000#18, []) := by decide

/-- R200: the second example of 2.8. -/
theorem test_reset_clears_violation :
    statusWord { State.reset with viol := true, vcause := .endNoReq } = 0x00140#18 ∧
    (after (step { State.reset with viol := true, vcause := .endNoReq, inputs := [.reset none] })).map statusWord =
      some 0x00000#18 := by decide

/-- R13: the word placed by `withFetchWord` runs in the next step. -/
theorem test_step_runs_fetched_word :
    after (step (State.reset.withFetchWord 16 0x300)) = after (exec .trig State.reset) := by decide

/-! ### The datapath (2.5, 2.6) -/

theorem test_trailer :
    trailer [0x00, 0x00, 0x00, 0x03, 0x41, 0x00, 0x00] = 0xBC ∧ trailer (List.replicate 7 0xFF) = 0x07 ∧
    trailer [0x01, 0x02, 0x03, 0x04, 0x05, 0x06, 0x07] = 0xE4 ∧ trailer (List.replicate 7 0x80) = 0x80 ∧
    expectedTrailer 0x7F = 0x81 ∧ expectedTrailer 0xFF = 0x01 ∧ expectedTrailer 0x00 = 0x00 := by decide

theorem test_checksum :
    validateChecksum 0x44 0xBC = true ∧ validateChecksum 0x44 0xBD = false ∧ validateChecksum 0x00 0xFF = false ∧
    validateChecksum 0x17 0xE8 = false ∧ validateChecksum 0xC9 0x37 = true := by decide

theorem test_raw_count :
    extractRawCount 0x03 0x41 = 0x0341#16 ∧ extractRawCount 0x80 0x00 = 0x8000#16 ∧
    (extractRawCount 0x07 0xD0).toNat = 2000 := by decide

/-! ### The consumer (2.9) and the text forms (R84) -/

theorem test_concentration :
    concentration 0 = 0 ∧ concentration 1 = 0x3F53AB2DCA869B81 ∧ concentration 833 = 0x3FF0000000000000 ∧
    concentration 834 = 0x3FF004EACB72A1A7 := by decide

theorem test_concentration_large :
    concentration 2000 = 0x4003352AB7C773DC ∧ concentration 65535 = 0x4053AB1A1F58D0FB := by decide

theorem test_read_record :
    readRecord 0x20000005#32 = some (.incomplete 5) ∧ readRecord 0x80000000#32 = none ∧
    readRecord 0x60000001#32 = none := by decide

theorem test_assemble :
    assemble "TRIG ; a comment\nPARTIAL 0xFF, 23\n.word 0x1FF\nRESET\nEMPTY".toList =
      some [.event 0x300#11, .event 0x0FF#11, .event 0x017#11, .event 0x100#11, .event 0x1FF#11, .reset none,
        .event 0x100#11] ∧
    assemble "BYTE 256".toList = none := by decide

/-- R85 with program P3's FRAMEC: its trailer is 0x37. -/
theorem test_framec :
    (Line.framec [0xFF, 0x17, 0x04, 0x00, 0x07, 0xD0, 0x07, 0xD0]).inputs.drop 7 =
      [.event 0x0D0#11, .event 0x037#11, .event 0x100#11] := by decide

theorem test_item_text :
    (Item.record 0x01FF0341#32).text = "READING(ckv=1, b0=0xFF, raw=0x0341)".toList ∧
    (Item.record 0x20000005#32).text = "INCOMPLETE(5)".toList ∧ (Item.req 9#4).text = "Req(9)".toList := by decide

/-! ### Witnesses -/

theorem witness_WordsAreClassifiedInOrder :
    4 ≤ (0x400#11 : EventWord).toNat / 256 ∧ (0x3FF#11 : EventWord).toNat / 256 = 3 ∧
    (0x3FF#11 : EventWord).toNat % 256 ≠ 0 ∧ (0x0FF#11 : EventWord).toNat / 256 = 0 ∧
    (0x100#11 : EventWord).toNat / 256 = 1 ∧ (0x100#11 : EventWord).toNat % 256 = 0 ∧
    (0x200#11 : EventWord).toNat / 256 = 2 ∧ (0x200#11 : EventWord).toNat % 256 = 0 ∧
    (0x300#11 : EventWord).toNat / 256 = 3 ∧ (0x300#11 : EventWord).toNat % 256 = 0 := by decide

theorem witness_StepRunsTheDecodedEvent :
    (runStart [.event 0x300#11, .event 0x0BC#11]).inputs = .event 0x300#11 :: [.event 0x0BC#11] ∧
    decode 0x300#11 = .event .trig ∧ decode (BitVec.ofNat 11 0x0BC) = .event (.byte 0xBC) := by decide

theorem witness_StepIsRefusedExactlyWithoutInput : State.reset.inputs = [] ∧ step State.reset = .refused .noInput := ⟨rfl, rfl⟩

theorem witness_ResetClearsAllButTheTrace :
    { receiving goodFrame with inputs := [.reset (some 0x100#11)] }.inputs = .reset (some 0x100#11) :: [] ∧
    ∃ t, step { State.reset with viol := true, vcause := .overrun, inputs := [.event 0x200#11] } = .next t ∧
      t.viol = true ∧ t.vcause = .overrun := ⟨rfl, _, rfl, by decide⟩

theorem witness_ViolatingEventsOnlyRaise :
    State.reset.st = .idle ∧ (receiving goodFrame).st = .wait ∧ (receiving goodFrame).cnt = 9 := by decide

theorem witness_ReservedWordsOnlyRaise :
    (runStart [.event 0x400#11]).inputs = .event 0x400#11 :: [] ∧ 4 ≤ (0x400#11 : EventWord).toNat / 256 ∧
    4 ≤ (0x7FF#11 : EventWord).toNat / 256 ∧ (0x101#11 : EventWord).toNat / 256 = 1 ∧
    (0x101#11 : EventWord).toNat % 256 ≠ 0 ∧ (0x3FF#11 : EventWord).toNat / 256 = 3 ∧
    (0x3FF#11 : EventWord).toNat % 256 ≠ 0 := by decide

/-- STATUS after one event word from a state. -/
def statusAfter (s : State) (w : EventWord) : Option StatusWord :=
  (after (step { s with inputs := [.event w] })).map statusWord

/-- Every code of R177, each at its condition: VCAUSE is bits 9:7, VIOL bit 6. -/
theorem witness_FirstViolationShowsItsCode :
    statusAfter State.reset 0x000#11 = some 0x000C0#18 ∧ statusAfter State.reset 0x100#11 = some 0x00140#18 ∧
    statusAfter State.reset 0x200#11 = some 0x001C0#18 ∧ statusAfter (receiving goodFrame) 0x0FF#11 = some 0x11259#18 ∧
    statusAfter State.reset 0x400#11 = some 0x002C0#18 ∧ statusAfter State.reset 0x3FF#11 = some 0x00340#18 := by decide

theorem witness_EventsRunTheSameAfterAViolation :
    (∃ t, exec .endResp (receiving goodFrame) = .next t) ∧ (∃ t, exec (.byte 0x55) State.reset = .next t) ∧
    (∃ t, exec .err (receiving []) = .next t) ∧ ∃ t, exec .trig (receiving []) = .next t :=
  ⟨⟨_, rfl⟩, ⟨_, rfl⟩, ⟨_, rfl⟩, ⟨_, rfl⟩⟩

theorem witness_ViolationsAreExactlyContractBreaches :
    StateInv { receiving goodFrame with tpend := false, inputs := [.event 0x000#11] } ∧
    inputConforms (receiving goodFrame) (.event 0x000#11) = false ∧
    inputConforms (receiving goodFrame) (.event 0x100#11) = true ∧
    inputConforms (receiving (goodFrame.take 8)) (.event 0x000#11) = true ∧
    inputConforms State.reset (.event 0x000#11) = false ∧ inputConforms State.reset (.event 0x300#11) = true :=
  ⟨receiving_inv' goodFrame (by decide) _ _, by decide⟩

theorem witness_ByteStoresSumsAndCounts :
    (∀ n ∈ [0, 1, 7, 8], (receiving (goodFrame.take n)).st = .wait ∧ (receiving (goodFrame.take n)).cnt.toNat = n) ∧
    (receiving (goodFrame.take 8)).win.wf ∧ State.reset.st = .idle ∧ (receiving goodFrame).cnt = 9 :=
  ⟨by decide, cells_wf _ (by decide), by decide, by decide⟩

theorem witness_EmptyResponseEndsTheCycle :
    (receiving []).st = .wait ∧ (receiving []).cnt = 0 ∧ (receiving []).tpend = false ∧
    { receiving [] with tpend := true }.tpend = true := by decide

theorem witness_PartialResponseIsReportedAndDiscarded :
    ∀ n ∈ [1, 8], (receiving (goodFrame.take n)).st = .wait ∧ (receiving (goodFrame.take n)).cnt.toNat = n := by decide

theorem witness_FullResponseIsDecoded :
    (receiving goodFrame).st = .wait ∧ (receiving goodFrame).cnt = 9 ∧ (receiving goodFrame).win.read 0 = some 0xFF ∧
    (receiving goodFrame).win.read 4 = some 0x03 ∧ (receiving goodFrame).win.read 5 = some 0x41 ∧
    (receiving goodFrame).win.read 8 = some 0xBC := by decide

theorem witness_FailedReadEndsTheCycle :
    (∀ n ∈ [0, 1, 8, 9], (receiving (goodFrame.take n)).st = .wait ∧ (receiving (goodFrame.take n)).tpend = false) ∧
    { receiving [] with tpend := true }.tpend = true ∧ State.reset.st = .idle := by decide

theorem witness_TrigStartsOrDefersACycle : State.reset.st = .idle ∧ (receiving goodFrame).st = .wait := by decide

/-- The two ways an event stops: a counter that no run reaches, and a full count without its cells. -/
theorem witness_EventsStopOnlyOnMissingCells :
    exec (.byte 0x00) (counting 10 0x00) = .fault (.noSuchCell 10) ∧
    exec .endResp (counting 9 0x00) = .fault (.unwrittenCell 8) := ⟨rfl, rfl⟩

theorem witness_WindowCellsAfterAnEvent :
    (∃ t, exec (.byte 0x01) (receiving (goodFrame.take 8)) = .next t) ∧ (∃ t, exec .endResp (receiving goodFrame) = .next t) ∧
    (∃ t, exec .err (receiving goodFrame) = .next t) ∧ (∃ t, exec .trig (receiving goodFrame) = .next t) ∧
    (∃ t, exec .trig State.reset = .next t) ∧ (∃ t, exec (.byte 0x01) State.reset = .next t) ∧
    (∃ t, exec .endResp State.reset = .next t) ∧ ∃ t, exec .err State.reset = .next t :=
  ⟨⟨_, rfl⟩, ⟨_, rfl⟩, ⟨_, rfl⟩, ⟨_, rfl⟩, ⟨_, rfl⟩, ⟨_, rfl⟩, ⟨_, rfl⟩, ⟨_, rfl⟩⟩

/-- Each register does change in some event. -/
theorem witness_RegistersChangeOnlyWhereTheTableSays :
    (∃ t, exec .trig State.reset = .next t ∧ t.st ≠ State.reset.st) ∧
    (∃ t, exec (.byte 0x03) (receiving [0xFF]) = .next t ∧ t.cnt ≠ 1 ∧ t.acc ≠ 0) ∧
    (∃ t, exec .endResp (receiving goodFrame) = .next t ∧ t.cnt ≠ 9 ∧ t.acc ≠ 0x44) ∧
    (∃ t, exec .trig (receiving []) = .next t ∧ t.tpend ≠ false) ∧
    ∃ t, exec .err State.reset = .next t ∧ t.viol ≠ false ∧ t.vcause ≠ .none :=
  ⟨⟨_, rfl, by decide⟩, ⟨_, rfl, by decide⟩, ⟨_, rfl, by decide⟩, ⟨_, rfl, by decide⟩, ⟨_, rfl, by decide⟩⟩

theorem witness_TriggersDuringACycleCoalesce : (receiving [0x01]).st = .wait := by decide

theorem witness_CycleEndsOnlyByEosErrorOrReset :
    (∃ t, step { receiving [] with inputs := [.event 0x100#11] } = .next t ∧ t.st = .idle) ∧
    (∃ t, step { receiving goodFrame with inputs := [.event 0x200#11] } = .next t ∧ t.st = .idle) ∧
    (∃ t, step { receiving [0x01] with inputs := [.reset none] } = .next t ∧ t.st = .idle) ∧
    ∃ t, step { receiving [] with tpend := true, inputs := [.event 0x100#11] } = .next t ∧ t.tpend = false :=
  ⟨⟨_, rfl, rfl⟩, ⟨_, rfl, rfl⟩, ⟨_, rfl, rfl⟩, ⟨_, rfl, rfl⟩⟩

theorem witness_OneRequestIsOutstandingWhileBusy :
    (∃ t, step { receiving goodFrame with inputs := [.event 0x100#11] } = .next t ∧ t.requests.length = 2 ∧
      t.records.length = 1) ∧
    (∀ off, Input.reset off ∉ [Input.event 0x300#11, .event 0x100#11]) ∧
    (∃ t, runSteps 1 (runStart [.event 0x300#11, .event 0x100#11]) = .next t ∧ t.mayBeFinal = true ∧ t.st = .wait) ∧
    ∃ t, runSteps 2 (runStart [.event 0x300#11, .event 0x100#11]) = .next t ∧ t.mayBeFinal = true ∧ t.st = .idle :=
  ⟨⟨_, rfl, by decide⟩, fun off => by simp, ⟨_, rfl, rfl, rfl⟩, ⟨_, rfl, rfl, rfl⟩⟩

theorem witness_OutputTraceOnlyGrows :
    (∃ t, step (runStart [.event 0x300#11]) = .next t ∧ t.trace = [.req 9#4]) ∧
    ∃ t, step (runStart [.reset none]) = .next t ∧ t.trace = [] := ⟨⟨_, rfl, rfl⟩, ⟨_, rfl, rfl⟩⟩

theorem witness_EmittedItemsAreWellFormed :
    ∃ t, step { receiving goodFrame with inputs := [.event 0x100#11] } = .next t ∧
      t.trace = [.req 9#4] ++ [.record 0x01FF0341#32, .req 9#4] := ⟨_, rfl, by decide⟩

theorem witness_RequestIssueForgetsTheResponse :
    (∃ t, exec .endResp (receiving goodFrame) = .next t ∧
      (receiving goodFrame).requests.length < t.requests.length) ∧
    { receiving goodFrame with viol := true, tpend := true }.win = (receiving goodFrame).win ∧
    { receiving goodFrame with viol := true, tpend := true }.acc = (receiving goodFrame).acc :=
  ⟨⟨_, rfl, by decide⟩, rfl, rfl⟩

theorem witness_StepKeepsTheInvariant :
    StateInv { receiving goodFrame with tpend := true, inputs := [.event 0x100#11] } ∧
    ∃ t, step { receiving goodFrame with tpend := true, inputs := [.event 0x100#11] } = .next t :=
  ⟨receiving_inv' goodFrame (by decide) _ _, _, rfl⟩

theorem witness_NoInputHaltsTheBlock :
    StateInv { receiving goodFrame with tpend := true, inputs := [.event 0x7FF#11] } :=
  receiving_inv' goodFrame (by decide) _ _

theorem witness_StreamOrderIsIndexOrder :
    StateInv { receiving [] with tpend := false, inputs := goodFrame.map fun d => Input.event (encode (.byte d)) } ∧
    (receiving []).st = .wait ∧ (receiving []).cnt = 0 ∧ goodFrame.length ≤ 9 ∧
    ∃ t, runSteps 9 { receiving [] with tpend := false, inputs := goodFrame.map fun d => Input.event (encode (.byte d)) } =
      .next t ∧ t.mayBeFinal = true :=
  ⟨receiving_inv' [] (by decide) _ _, rfl, rfl, by decide, _, rfl, rfl⟩

theorem witness_ResponseHasExactlyOneOutcome :
    (∀ r ∈ [Response.mk [] false, .mk [0x01] false, .mk goodFrame false, .mk goodFrame true], r.conforms = true) ∧
    StateInv { receiving [] with tpend := true, inputs := (Response.mk goodFrame false).inputs } ∧
    ∃ t, runSteps 10 { receiving [] with tpend := true, inputs := (Response.mk goodFrame false).inputs } = .next t ∧
      t.mayBeFinal = true :=
  ⟨by decide, receiving_inv' [] (by decide) _ _, _, rfl, rfl⟩

theorem witness_ConformingEnvironmentNeverViolates :
    StateInv (runStart [.event 0x300#11, .event 0x0FF#11, .event 0x100#11]) ∧
    (runStart [.event 0x300#11, .event 0x0FF#11, .event 0x100#11]).faulted = false ∧
    ConformingFor 3 (runStart [.event 0x300#11, .event 0x0FF#11, .event 0x100#11]) := by
  refine ⟨start_inv _, rfl, ⟨_, _, rfl, by decide⟩, fun t h => ?_⟩
  cases h
  refine ⟨⟨_, _, rfl, by decide⟩, fun t h => ?_⟩
  cases h
  refine ⟨⟨_, _, rfl, by decide⟩, fun t h => ?_⟩
  cases h
  exact trivial

theorem witness_TrailerIsTheOnlyPassingByte :
    ((goodFrame.drop 1).take 7).length = 7 ∧
    frameChecksumOk (0xFF :: (goodFrame.drop 1).take 7 ++ [0xBC]) = true ∧
    frameChecksumOk (0xFF :: (goodFrame.drop 1).take 7 ++ [0xBD]) = false := by decide

theorem witness_ComparatorFormsAgree :
    goodFrame.length = 9 ∧ goodFrame[8]? = some 0xBC ∧ ∀ i, (cells 0 goodFrame).read i = goodFrame[i]? :=
  ⟨rfl, rfl, fun i => by simp [read_cells]⟩

theorem witness_ChecksumDetectsSingleByteChanges :
    goodFrame.length = 9 ∧ goodFrame[1]? ≠ some 0x01 ∧ goodFrame[8]? ≠ some 0xBD ∧ frameChecksumOk goodFrame = true ∧
    ((goodFrame.drop 1).take 7).Perm [0x41, 0x03, 0x00, 0x00, 0x00, 0x00, 0x00] ∧
    goodFrame[1]? = some 0x00 ∧ goodFrame[4]? = some 0x03 := by decide

theorem witness_ReadingFieldsDependOnTheirBytesOnly :
    StateInv (receiving goodFrame) ∧ StateInv (receiving badFrame) ∧ (receiving badFrame).st = .wait ∧
    (receiving badFrame).cnt = 9 ∧ (receiving goodFrame).win.read 4 = (receiving badFrame).win.read 4 ∧
    (receiving goodFrame).win.read 5 = (receiving badFrame).win.read 5 ∧
    ∀ i, 1 ≤ i → i ≤ 8 →
      (receiving goodFrame).win.read i = (receiving ((0x00 : Byte) :: goodFrame.drop 1)).win.read i := by
  refine ⟨receiving_inv _ (by decide), receiving_inv _ (by decide), by decide, by decide, by decide, by decide, ?_⟩
  intro i h1 h8
  obtain ⟨j, rfl⟩ := Nat.exists_eq_add_of_le' h1
  simp [receiving, read_cells, goodFrame]

theorem witness_ChecksumMismatchIsData :
    StateInv (receiving goodFrame) ∧ (receiving goodFrame).st = .wait ∧ (receiving goodFrame).cnt = 9 ∧
    (receiving goodFrame).win.write 8 0xBD = (receiving badFrame).win :=
  ⟨receiving_inv _ (by decide), by decide⟩

theorem witness_RawCountIsBigEndian :
    (receiving goodFrame).win.read 4 = some 0x03 ∧ (receiving goodFrame).win.read 5 = some 0x41 := by decide

theorem witness_RecordsReadBackAsWritten : 0x80000000 ≤ (0x80000000#32 : RecordWord).toNat := by decide

/-- The premises, and a quotient halfway between two binary64 values: 2^53 + 1 rounds to 2^53, which is even. -/
theorem witness_RoundingErrorIsAtMostHalfAUnit :
    (2 : ℚ) ^ (-4 : Int) ≤ (833 : Nat) / (6665 : Nat) ∧ ((833 : Nat) : ℚ) / (6665 : Nat) < 2 ^ (-4 + 1 : Int) ∧
    |binary64Value (roundRatio (2 ^ 53 + 1) 1) - ((2 ^ 53 + 1 : Nat) : ℚ) / (1 : Nat)| = 2 ^ (53 - 53 : Int) := by
  refine ⟨by norm_num, by norm_num, ?_⟩
  have h : binary64Ratio (roundRatio (2 ^ 53 + 1) 1) = (2 ^ 53, 1) := by decide
  rw [binary64Value, h]
  norm_num

theorem witness_PseudoInstructionsAreResponses : (goodFrame.take 8).length = 8 := by decide

end Sys2Proof.Tests
end

section
/-!
The step (00_scope.md R13), and the record as the consumer reads it (R19).
-/

namespace Sys2Proof.Machine

/-! ### The step (R13) -/

theorem withFetchWord_inputs (s : State) (nbits w : Nat) :
    (s.withFetchWord nbits w).inputs = .event (BitVec.ofNat 11 w) :: s.inputs := rfl

/-- Settles O5: the step law for an event word, and taking the word that `withFetchWord` places gives `s` back. -/
theorem stepRunsTheDecodedEvent : Obligations.StepRunsTheDecodedEvent :=
  ⟨step_event, fun s nbits w i hd => step_event _ _ _ i (withFetchWord_inputs s nbits w) hd⟩

/-! ### The fields of a record's word (30_encoding.md R80 to R83) -/

theorem recordKind_reading (ckv : Bool) (b0 : Byte) (raw : RawCount) :
    recordKind (Report.reading ckv b0 raw).word = 0b000#3 :=
  (BitVec.extractLsb'_append_eq_of_le (xlo := raw) (by decide)).trans <|
    (BitVec.extractLsb'_append_eq_of_le (xlo := b0) (by decide)).trans <|
      (BitVec.extractLsb'_append_eq_of_le (xlo := BitVec.ofBool ckv) (by decide)).trans (by decide)

theorem recordKind_incomplete (n : BitVec 4) : recordKind (Report.incomplete n).word = 0b001#3 :=
  (BitVec.extractLsb'_append_eq_of_le (xlo := n) (by decide)).trans (by decide)

theorem recordKind_ioError (n : BitVec 4) : recordKind (Report.ioError n).word = 0b010#3 :=
  (BitVec.extractLsb'_append_eq_of_le (xlo := n) (by decide)).trans (by decide)

theorem reading_word_ckv (ckv : Bool) (b0 : Byte) (raw : RawCount) :
    (Report.reading ckv b0 raw).word.getLsbD 24 = ckv :=
  (BitVec.getLsbD_append (y := raw)).trans <|
    (BitVec.getLsbD_append (y := b0)).trans <|
      (BitVec.getLsbD_append (y := BitVec.ofBool ckv)).trans (by simp)

theorem reading_word_b0 (ckv : Bool) (b0 : Byte) (raw : RawCount) :
    (Report.reading ckv b0 raw).word.extractLsb' 16 8 = b0 :=
  (BitVec.extractLsb'_append_eq_of_le (xlo := raw) (by decide)).trans <|
    (BitVec.extractLsb'_append_eq_of_add_le (xlo := b0) (by decide)).trans BitVec.extractLsb'_eq_self

theorem reading_word_raw (ckv : Bool) (b0 : Byte) (raw : RawCount) :
    (Report.reading ckv b0 raw).word.extractLsb' 0 16 = raw :=
  (BitVec.extractLsb'_append_eq_of_add_le (xlo := raw) (by decide)).trans BitVec.extractLsb'_eq_self

theorem incomplete_word_count (n : BitVec 4) : (Report.incomplete n).word.extractLsb' 0 4 = n :=
  (BitVec.extractLsb'_append_eq_of_add_le (xlo := n) (by decide)).trans BitVec.extractLsb'_eq_self

theorem ioError_word_count (n : BitVec 4) : (Report.ioError n).word.extractLsb' 0 4 = n :=
  (BitVec.extractLsb'_append_eq_of_add_le (xlo := n) (by decide)).trans BitVec.extractLsb'_eq_self

/-- The fields of a report's word are the report. -/
theorem recordFields_word (r : Report) : recordFields r.word = some r := by
  cases r with
  | reading ckv b0 raw =>
    simp only [recordFields, recordKind_reading, reading_word_ckv, reading_word_b0, reading_word_raw]
  | incomplete n => simp only [recordFields, recordKind_incomplete, incomplete_word_count]
  | ioError n => simp only [recordFields, recordKind_ioError, ioError_word_count]
  | eos => decide

/-- A record reads back as the report it was written from. -/
@[simp] theorem readRecord_word (r : Report) : readRecord r.word = some r := by
  simp [readRecord, recordFields_word]

/-! ### The consumer's conversion (R19) -/

/-- Settles O44: each record reads back as its report, and `consume` looks at nothing else. -/
theorem everyReadingIsConverted : Obligations.EveryReadingIsConverted := by
  refine ⟨fun ckv b0 raw => ?_, fun n => ⟨?_, ?_, ?_⟩⟩ <;> simp only [consume, readRecord_word]

end Sys2Proof.Machine
end

section
/-!
The consumer's rounding (R18, log entry 13): `roundRatio` scales the quotient by a power of two so that its integer part
has 53 bits, takes the nearest integer, ties to even, and puts exponent and integer together.
-/

namespace Sys2Proof.Machine

/-! ### Quotients scaled by a power of two -/

/-- An integer power of two as a quotient of two natural ones, of which one is 1. -/
theorem two_zpow_eq_div (e : Int) : (2 : ℚ) ^ e = 2 ^ e.toNat / 2 ^ (-e).toNat := by
  rw [← zpow_natCast, ← zpow_natCast, ← zpow_sub₀ two_ne_zero]
  congr 1
  omega

/-- The model's scaled numerator over its scaled denominator is the quotient over `2 ^ e`. -/
theorem scaledRatio_eq (n d : Nat) (e : Int) :
    ((n * 2 ^ (-e).toNat : Nat) : ℚ) / (d * 2 ^ e.toNat : Nat) = n / d / 2 ^ e := by
  rw [two_zpow_eq_div]
  push_cast
  field_simp

theorem scaled_lt_iff (n d : Nat) (e : Int) (hd : 0 < d) :
    n * 2 ^ (-e).toNat < d * 2 ^ e.toNat ↔ (n : ℚ) / d < 2 ^ e := by
  have hd' : (0 : ℚ) < (d * 2 ^ e.toNat : Nat) := by positivity
  rw [← div_lt_one (by positivity : (0 : ℚ) < 2 ^ e), ← scaledRatio_eq, div_lt_one hd', Nat.cast_lt]

/-- A number of magnitude `2 ^ k` is from `2 ^ 52` to `2 ^ 53` units in the last place. -/
theorem div_unit_bounds (x : ℚ) (k : Int) (hlow : 2 ^ k ≤ x) (hhigh : x < 2 ^ (k + 1)) :
    ((2 ^ 52 : Nat) : ℚ) ≤ x / 2 ^ (k - 52) ∧ x / 2 ^ (k - 52) < (2 ^ 53 : Nat) := by
  have hunit : (0 : ℚ) < 2 ^ (k - 52) := by positivity
  have hk : (2 : ℚ) ^ k = 2 ^ 52 * 2 ^ (k - 52) := by
    rw [← zpow_natCast, ← zpow_add₀ two_ne_zero]
    congr 1
    omega
  rw [zpow_add_one₀ two_ne_zero, hk] at hhigh
  rw [hk] at hlow
  rw [le_div_iff₀ hunit, div_lt_iff₀ hunit]
  push_cast
  exact ⟨hlow, by linarith⟩

/-! ### The exponent -/

/-- The difference of the two logarithms is the quotient's logarithm or one more. -/
theorem ratio_bounds_log2 (n d : Nat) (hn : 0 < n) (hd : 0 < d) :
    (2 : ℚ) ^ ((Nat.log2 n : Int) - Nat.log2 d - 1) < n / d ∧
    (n : ℚ) / d < 2 ^ ((Nat.log2 n : Int) - Nat.log2 d + 1) := by
  have hn1 : (2 : ℚ) ^ (Nat.log2 n : Int) ≤ n := by exact_mod_cast Nat.log2_self_le hn.ne'
  have hn2 : (n : ℚ) < 2 ^ ((Nat.log2 n : Int) + 1) := by exact_mod_cast Nat.lt_log2_self (n := n)
  have hd1 : (2 : ℚ) ^ (Nat.log2 d : Int) ≤ d := by exact_mod_cast Nat.log2_self_le hd.ne'
  have hd2 : (d : ℚ) < 2 ^ ((Nat.log2 d : Int) + 1) := by exact_mod_cast Nat.lt_log2_self (n := d)
  have hd0 : (0 : ℚ) < d := by exact_mod_cast hd
  constructor
  · rw [sub_sub, zpow_sub₀ two_ne_zero]
    exact div_lt_div₀' hn1 hd2 (by positivity) hd0
  · rw [sub_add_eq_add_sub, zpow_sub₀ two_ne_zero]
    exact div_lt_div₀ hn2 hd1 (by positivity) (by positivity)

/-- `ratioLog2` is the floor of the quotient's base-2 logarithm. -/
theorem ratioLog2_bounds (n d : Nat) (hn : 0 < n) (hd : 0 < d) :
    (2 : ℚ) ^ ratioLog2 n d ≤ n / d ∧ (n : ℚ) / d < 2 ^ (ratioLog2 n d + 1) := by
  obtain ⟨hlow, hhigh⟩ := ratio_bounds_log2 n d hn hd
  simp only [ratioLog2]
  split_ifs with h
  · exact ⟨hlow.le, by rw [sub_add_cancel]; exact (scaled_lt_iff n d _ hd).1 h⟩
  · exact ⟨not_lt.1 (mt (scaled_lt_iff n d _ hd).2 h), hhigh⟩

/-- Only one power of two bounds a quotient from below and, doubled, from above. -/
theorem ratioLog2_eq (n d : Nat) (k : Int) (hn : 0 < n) (hd : 0 < d) (hlow : (2 : ℚ) ^ k ≤ n / d)
    (hhigh : (n : ℚ) / d < 2 ^ (k + 1)) : ratioLog2 n d = k := by
  obtain ⟨hlow', hhigh'⟩ := ratioLog2_bounds n d hn hd
  have h1 : k < ratioLog2 n d + 1 := (zpow_lt_zpow_iff_right₀ one_lt_two).1 (hlow.trans_lt hhigh')
  have h2 : ratioLog2 n d < k + 1 := (zpow_lt_zpow_iff_right₀ one_lt_two).1 (hlow'.trans_lt hhigh)
  omega

/-! ### The nearest integer, ties to even -/

/-- The integer nearest to `n / d`, ties to even: the integer part of `roundRatio`, see `roundRatio_eq`. -/
def nearestEven (n d : Nat) : Nat :=
  if 2 * (n % d) < d then n / d else if d < 2 * (n % d) then n / d + 1 else n / d + n / d % 2

theorem roundRatio_eq (n d : Nat) (k : Int) (hn : 0 < n) (hk : ratioLog2 n d = k) :
    roundRatio n d = BitVec.ofNat 64 ((k - 52 + 1074).toNat * 2 ^ 52 +
      nearestEven (n * 2 ^ (-(k - 52)).toNat) (d * 2 ^ (k - 52).toNat)) := by
  simp only [roundRatio, hn.ne', if_false, hk, nearestEven]

/-- The quotient is its integer part and the remainder's share of `d`. -/
theorem div_eq_quotient_add (n d : Nat) (hd : 0 < d) :
    (n : ℚ) / d = (n / d : Nat) + ((n % d : Nat) : ℚ) / d := by
  have hd0 : (d : ℚ) ≠ 0 := by exact_mod_cast hd.ne'
  have h : (d : ℚ) * (n / d : Nat) + (n % d : Nat) = n := by exact_mod_cast Nat.div_add_mod n d
  rw [← h]
  field_simp

/-- The nearest integer is off by less than a half, or by a half and even. -/
theorem nearestEven_error (n d : Nat) (hd : 0 < d) :
    |(nearestEven n d : ℚ) - n / d| < 1 / 2 ∨
    |(nearestEven n d : ℚ) - n / d| = 1 / 2 ∧ nearestEven n d % 2 = 0 := by
  have hd0 : (0 : ℚ) < d := by exact_mod_cast hd
  have hr0 : (0 : ℚ) ≤ ((n % d : Nat) : ℚ) / d := by positivity
  have hr1 : ((n % d : Nat) : ℚ) / d < 1 := (div_lt_one hd0).2 (by exact_mod_cast Nat.mod_lt n hd)
  rw [div_eq_quotient_add n d hd]
  unfold nearestEven
  split_ifs with hlt hgt
  · have hr : ((n % d : Nat) : ℚ) / d < 1 / 2 := by
      rw [div_lt_iff₀ hd0]
      have : (2 : ℚ) * (n % d : Nat) < d := by exact_mod_cast hlt
      linarith
    exact .inl (abs_lt.2 ⟨by linarith, by linarith⟩)
  · have hr : 1 / 2 < ((n % d : Nat) : ℚ) / d := by
      rw [lt_div_iff₀ hd0]
      have : (d : ℚ) < 2 * (n % d : Nat) := by exact_mod_cast hgt
      linarith
    refine .inl (abs_lt.2 ⟨?_, ?_⟩) <;> push_cast <;> linarith
  · have hr : ((n % d : Nat) : ℚ) / d = 1 / 2 := by
      rw [div_eq_iff hd0.ne']
      have : (2 : ℚ) * (n % d : Nat) = d := by exact_mod_cast (by omega : 2 * (n % d) = d)
      linarith
    refine .inr ⟨?_, by omega⟩
    rw [hr]
    obtain h | h := Nat.mod_two_eq_zero_or_one (n / d) <;> rw [h] <;> push_cast
    · rw [add_zero, sub_add_cancel_left, abs_neg, abs_of_pos one_half_pos]
    · rw [add_sub_add_left_eq_sub]; norm_num

/-- Natural bounds of a quotient bound its nearest integer. -/
theorem nearestEven_bounds (n d a b : Nat) (hd : 0 < d) (ha : (a : ℚ) ≤ n / d) (hb : (n : ℚ) / d < b) :
    a ≤ nearestEven n d ∧ nearestEven n d ≤ b := by
  have hd0 : (0 : ℚ) < d := by exact_mod_cast hd
  have ha' : a ≤ n / d := (Nat.le_div_iff_mul_le hd).2 (by exact_mod_cast (le_div_iff₀ hd0).1 ha)
  have hb' : n / d < b := (Nat.div_lt_iff_lt_mul hd).2 (by exact_mod_cast (div_lt_iff₀ hd0).1 hb)
  unfold nearestEven
  split_ifs <;> omega

/-! ### The bits of the result -/

/-- The value of a normal number, from its exponent field `b` and its fraction field `f`. -/
theorem binary64Value_of_fields (b f : Nat) (hb0 : b ≠ 0) (hb : b < 2 ^ 11) (hf : f < 2 ^ 52) :
    binary64Value (BitVec.ofNat 64 (b * 2 ^ 52 + f)) = (2 ^ 52 + f) * 2 ^ ((b : Int) - 1075) := by
  have hbiased : ((BitVec.ofNat 64 (b * 2 ^ 52 + f)).extractLsb' 52 11).toNat = b := by
    rw [BitVec.extractLsb'_toNat, BitVec.toNat_ofNat, Nat.shiftRight_eq_div_pow]; omega
  have hfrac : ((BitVec.ofNat 64 (b * 2 ^ 52 + f)).extractLsb' 0 52).toNat = f := by
    rw [BitVec.extractLsb'_toNat, BitVec.toNat_ofNat, Nat.shiftRight_zero]; omega
  have hpos : ((b : Int) - 1075).toNat = b - 1075 := by omega
  have hneg : (-((b : Int) - 1075)).toNat = 1075 - b := by omega
  simp only [binary64Value, binary64Ratio, hbiased, hfrac, hb0, if_false]
  rw [two_zpow_eq_div, hpos, hneg]
  push_cast
  ring

/-- `roundRatio` adds the 53-bit integer `m` to the exponent field, so that its leading bit raises the exponent by one. At
`m = 2 ^ 53` the carry raises it by two and leaves the fraction 0, which is the same value. -/
theorem binary64Value_of_sum (b m : Nat) (hb : b ≤ 2044) (hlow : 2 ^ 52 ≤ m) (hhigh : m ≤ 2 ^ 53) :
    binary64Value (BitVec.ofNat 64 (b * 2 ^ 52 + m)) = m * 2 ^ ((b : Int) - 1074) := by
  obtain hlt | rfl := hhigh.lt_or_eq
  · obtain ⟨f, rfl⟩ := Nat.exists_eq_add_of_le hlow
    have h := binary64Value_of_fields (b + 1) f (by omega) (by omega) (by omega)
    rw [show (b + 1) * 2 ^ 52 + f = b * 2 ^ 52 + (2 ^ 52 + f) by ring,
      show ((b + 1 : Nat) : Int) - 1075 = b - 1074 by omega] at h
    exact_mod_cast h
  · have h := binary64Value_of_fields (b + 2) 0 (by omega) (by omega) (by omega)
    rw [show (b + 2) * 2 ^ 52 + 0 = b * 2 ^ 52 + 2 ^ 53 by ring,
      show ((b + 2 : Nat) : Int) - 1075 = 1 + (b - 1074) by omega, zpow_add₀ two_ne_zero, ← mul_assoc] at h
    rw [h]
    norm_num

/-- The last bit of the result is that of the integer part. -/
theorem lastBit_of_sum (b m : Nat) (hm : m % 2 = 0) : (BitVec.ofNat 64 (b * 2 ^ 52 + m)).getLsbD 0 = false := by
  rw [BitVec.getLsbD_ofNat, Nat.testBit_zero]
  simp only [Bool.and_eq_false_iff, decide_eq_false_iff_not]
  omega

/-- In the normal range, `roundRatio` is a binary64 of value `m * 2 ^ (k - 52)` with `m` the integer nearest to the quotient
over `2 ^ (k - 52)`, ties to even. -/
theorem roundRatio_spec (n d : Nat) (k : Int) (hd : 0 < d) (hk0 : -1022 ≤ k) (hk1 : k ≤ 1022)
    (hlow : (2 : ℚ) ^ k ≤ n / d) (hhigh : (n : ℚ) / d < 2 ^ (k + 1)) :
    ∃ m : Nat, binary64Value (roundRatio n d) = m * 2 ^ (k - 52) ∧
      (m % 2 = 0 → (roundRatio n d).getLsbD 0 = false) ∧
      (|(m : ℚ) - n / d / 2 ^ (k - 52)| < 1 / 2 ∨ |(m : ℚ) - n / d / 2 ^ (k - 52)| = 1 / 2 ∧ m % 2 = 0) := by
  have hn : 0 < n := by
    refine Nat.pos_of_ne_zero fun h0 => ?_
    rw [h0, Nat.cast_zero, zero_div] at hlow
    exact (zpow_pos two_pos k).not_ge hlow
  have hD : 0 < d * 2 ^ (k - 52).toNat := by positivity
  have hscaled := scaledRatio_eq n d (k - 52)
  obtain ⟨hq0, hq1⟩ := div_unit_bounds (n / d) k hlow hhigh
  obtain ⟨hm0, hm1⟩ := nearestEven_bounds _ _ (2 ^ 52) (2 ^ 53) hD (hscaled ▸ hq0) (hscaled ▸ hq1)
  rw [roundRatio_eq n d k hn (ratioLog2_eq n d k hn hd hlow hhigh)]
  refine ⟨_, ?_, lastBit_of_sum _ _, hscaled ▸ nearestEven_error _ _ hD⟩
  rw [binary64Value_of_sum _ _ (by omega) hm0 hm1]
  congr 2
  omega

/-- Settles O45: the error of the integer part, scaled back by `2 ^ (k - 52)`. -/
theorem roundingErrorIsAtMostHalfAUnit : Obligations.RoundingErrorIsAtMostHalfAUnit := by
  intro n d k hd hk0 hk1 hlow hhigh
  obtain ⟨m, hvalue, heven, herror⟩ := roundRatio_spec n d k hd hk0 hk1 hlow hhigh
  have hunit : (0 : ℚ) < 2 ^ (k - 52) := by positivity
  have hhalf : (2 : ℚ) ^ (k - 53) = 1 / 2 * 2 ^ (k - 52) := by
    rw [show k - 52 = 1 + (k - 53) by omega, zpow_add₀ two_ne_zero]
    ring
  have hscale : |binary64Value (roundRatio n d) - n / d| = |(m : ℚ) - n / d / 2 ^ (k - 52)| * 2 ^ (k - 52) := by
    rw [hvalue, ← div_mul_cancel₀ ((n : ℚ) / d) hunit.ne', ← sub_mul, abs_mul, abs_of_pos hunit,
      div_mul_cancel₀ _ hunit.ne']
  rw [hscale, hhalf]
  obtain hlt | ⟨heq, hm⟩ := herror
  · have h := mul_lt_mul_of_pos_right hlt hunit
    exact ⟨h.le, fun htie => absurd htie h.ne⟩
  · exact ⟨(congrArg (· * (2 : ℚ) ^ (k - 52)) heq).le, fun _ => heven hm⟩

end Sys2Proof.Machine
end

section
/-!
Every result of an event, once: one constructor per case of the rules, so that each statement about events is a split into
named cases.
-/

namespace Sys2Proof.Machine

/-! ### The results of an event -/

/-- What an event in state `s` answers, by case. `exec_eq_iff` ties it to `exec`. -/
inductive EventCase (s : State) : Instr → Result → Prop
  /-- R103. -/
  | byteIdle (d : Byte) (hst : s.st = .idle) : EventCase s (.byte d) (.next (raiseViolation .byteNoReq s))
  /-- R102. -/
  | byteFull (d : Byte) (hst : s.st = .wait) (hcnt : s.cnt.toNat = frameLen) :
      EventCase s (.byte d) (.next (raiseViolation .overrun s))
  /-- R101. -/
  | byteAccept (d : Byte) (hst : s.st = .wait) (hcnt : s.cnt.toNat < frameLen) :
      EventCase s (.byte d) (.next { s with
        win := s.win.write s.cnt.toNat d, acc := accStep s.acc s.cnt.toNat d, cnt := s.cnt + 1 })
  /-- Log entry 6: a counter that no run reaches. -/
  | byteNoCell (d : Byte) (hst : s.st = .wait) (hcnt : frameLen < s.cnt.toNat) :
      EventCase s (.byte d) (.fault (.noSuchCell s.cnt.toNat))
  /-- R108. -/
  | endIdle (hst : s.st = .idle) : EventCase s .endResp (.next (raiseViolation .endNoReq s))
  /-- R105. -/
  | endEmpty (hst : s.st = .wait) (hcnt : s.cnt = 0) :
      EventCase s .endResp (.next (endCycle (emitReport .eos s)))
  /-- R106. -/
  | endPartial (hst : s.st = .wait) (hpos : s.cnt ≠ 0) (hcnt : s.cnt.toNat < frameLen) :
      EventCase s .endResp (.next (issueRequest (emitReport (.incomplete s.cnt) s)))
  /-- R107. -/
  | endFull (r : Report) (hst : s.st = .wait) (hcnt : frameLen ≤ s.cnt.toNat) (hr : decodeFrame s = .ok r) :
      EventCase s .endResp (.next (issueRequest (emitReport r s)))
  /-- R24: a decoded cell without a value. -/
  | endMissing (f : Fault) (hst : s.st = .wait) (hcnt : frameLen ≤ s.cnt.toNat) (hf : decodeFrame s = .error f) :
      EventCase s .endResp (.fault f)
  /-- R111. -/
  | errIdle (hst : s.st = .idle) : EventCase s .err (.next (raiseViolation .errNoReq s))
  /-- R109, R110. -/
  | errWait (hst : s.st = .wait) : EventCase s .err (.next (endCycle (emitReport (.ioError s.cnt) s)))
  /-- R151. -/
  | trigIdle (hst : s.st = .idle) : EventCase s .trig (.next (startCycle s))
  /-- R151. -/
  | trigWait (hst : s.st = .wait) : EventCase s .trig (.next { s with tpend := true })

theorem execByte_case (d : Byte) (s : State) : EventCase s (.byte d) (execByte d s) := by
  cases hst : s.st with
  | idle => exact execByte_idle d s hst ▸ .byteIdle d hst
  | wait =>
    obtain hlt | heq | hgt := Nat.lt_trichotomy s.cnt.toNat frameLen
    · exact execByte_accept d s hst hlt ▸ .byteAccept d hst hlt
    · exact execByte_full d s hst heq ▸ .byteFull d hst heq
    · exact execByte_noCell d s hst hgt ▸ .byteNoCell d hst hgt

theorem execEndResp_case (s : State) : EventCase s .endResp (execEndResp s) := by
  cases hst : s.st with
  | idle => exact execEndResp_idle s hst ▸ .endIdle hst
  | wait =>
    by_cases h0 : s.cnt = 0
    · exact execEndResp_empty s hst h0 ▸ .endEmpty hst h0
    · obtain hlt | hge := Nat.lt_or_ge s.cnt.toNat frameLen
      · exact execEndResp_partial s hst h0 hlt ▸ .endPartial hst h0 hlt
      · cases hr : decodeFrame s with
        | ok r => exact execEndResp_full s r hst hge hr ▸ .endFull r hst hge hr
        | error f => exact execEndResp_missing s f hst hge hr ▸ .endMissing f hst hge hr

theorem execErr_case (s : State) : EventCase s .err (execErr s) := by
  cases hst : s.st with
  | idle => exact execErr_idle s hst ▸ .errIdle hst
  | wait => exact execErr_wait s hst ▸ .errWait hst

theorem execTrig_case (s : State) : EventCase s .trig (execTrig s) := by
  cases hst : s.st with
  | idle => exact execTrig_idle s hst ▸ .trigIdle hst
  | wait => exact execTrig_wait s hst ▸ .trigWait hst

theorem exec_case (i : Instr) (s : State) : EventCase s i (exec i s) :=
  match i with
  | .byte d  => execByte_case d s
  | .endResp => execEndResp_case s
  | .err     => execErr_case s
  | .trig    => execTrig_case s

/-- An event's result is the one of its case. -/
theorem exec_eq_iff {i : Instr} {s : State} {r : Result} : exec i s = r ↔ EventCase s i r := by
  refine ⟨fun h => h ▸ exec_case i s, fun h => ?_⟩
  cases h with
  | byteIdle d hst => exact execByte_idle d s hst
  | byteFull d hst hcnt => exact execByte_full d s hst hcnt
  | byteAccept d hst hcnt => exact execByte_accept d s hst hcnt
  | byteNoCell d hst hcnt => exact execByte_noCell d s hst hcnt
  | endIdle hst => exact execEndResp_idle s hst
  | endEmpty hst hcnt => exact execEndResp_empty s hst hcnt
  | endPartial hst hpos hcnt => exact execEndResp_partial s hst hpos hcnt
  | endFull r hst hcnt hr => exact execEndResp_full s r hst hcnt hr
  | endMissing f hst hcnt hf => exact execEndResp_missing s f hst hcnt hf
  | errIdle hst => exact execErr_idle s hst
  | errWait hst => exact execErr_wait s hst
  | trigIdle hst => exact execTrig_idle s hst
  | trigWait hst => exact execTrig_wait s hst

/-! ### The output trace (10_state.md R30) -/

theorem requestWord_allowed : (Item.req requestWord).allowed = true := by decide

/-- Every report's word leaves its unassigned bits 0 (30_encoding.md R79). -/
theorem recordAllowed_word (r : Report) : recordAllowed r.word = true := by
  cases r with
  | reading ckv b0 raw =>
    have hbits : (Report.reading ckv b0 raw).word.extractLsb' 25 4 = 0#4 :=
      (BitVec.extractLsb'_append_eq_of_le (xlo := raw) (by decide)).trans <|
        (BitVec.extractLsb'_append_eq_of_le (xlo := b0) (by decide)).trans <|
          (BitVec.extractLsb'_append_eq_of_le (xlo := BitVec.ofBool ckv) (by decide)).trans (by decide)
    simp only [recordAllowed, recordKind_reading, hbits, beq_self_eq_true]
  | incomplete n =>
    have hbits : (Report.incomplete n).word.extractLsb' 4 25 = 0#25 :=
      (BitVec.extractLsb'_append_eq_of_le (xlo := n) (by decide)).trans (by decide)
    simp only [recordAllowed, recordKind_incomplete, hbits, beq_self_eq_true]
  | ioError n =>
    have hbits : (Report.ioError n).word.extractLsb' 4 25 = 0#25 :=
      (BitVec.extractLsb'_append_eq_of_le (xlo := n) (by decide)).trans (by decide)
    simp only [recordAllowed, recordKind_ioError, hbits, beq_self_eq_true]
  | eos => decide


theorem record_allowed (r : Report) : (Item.record r.word).allowed = true := recordAllowed_word r

/-- An event appends at most two items to the trace, each of which the block may emit. -/
theorem exec_trace {i : Instr} {s t : State} (h : exec i s = .next t) :
    ∃ items, t.trace = s.trace ++ items ∧ items.length ≤ 2 ∧ ∀ x ∈ items, x.allowed = true := by
  cases exec_eq_iff.1 h with
  | byteIdle | byteFull | byteAccept | endIdle | errIdle | trigWait =>
    exact ⟨[], (List.append_nil _).symm, by simp, by simp⟩
  | endEmpty | errWait =>
    refine ⟨_, by rw [endCycle_trace, emitReport_trace, List.append_assoc], ?_, ?_⟩ <;> split <;>
      simp [requestWord_allowed, record_allowed]
  | endPartial | endFull =>
    exact ⟨_, List.append_assoc _ _ _, by simp, by simp [requestWord_allowed, record_allowed]⟩
  | trigIdle => exact ⟨_, rfl, by simp, by simp [requestWord_allowed]⟩

/-- A step appends at most two items to the trace, each of which the block may emit, and a reset none. -/
theorem step_trace {s t : State} (h : step s = .next t) :
    ∃ items, t.trace = s.trace ++ items ∧ items.length ≤ 2 ∧ (∀ x ∈ items, x.allowed = true) ∧
      ((∃ off rest, s.inputs = .reset off :: rest) → items = []) := by
  obtain ⟨off, rest, -, rfl⟩ | ⟨w, rest, c, -, -, rfl⟩ | ⟨w, rest, i, hin, -, hexec⟩ := step_next s t h
  · exact ⟨[], (List.append_nil _).symm, by simp⟩
  · exact ⟨[], (List.append_nil _).symm, by simp⟩
  · obtain ⟨items, htrace, hlen, hallowed⟩ := exec_trace hexec
    exact ⟨items, htrace, hlen, hallowed, by simp [hin]⟩

/-- Settles O27: what a step appends to the trace, without the items' form. -/
theorem outputTraceOnlyGrows : Obligations.OutputTraceOnlyGrows := by
  intro s t h
  obtain ⟨items, htrace, hlen, -, hreset⟩ := step_trace h
  exact ⟨items, htrace, hlen, hreset⟩

end Sys2Proof.Machine
end

section
/-!
The invariant (10_state.md R25): each operation keeps it, so each event and each step does.
-/

namespace Sys2Proof.Machine

/-! ### The operations keep the invariant -/

/-- A state that holds nothing of a response satisfies the invariant, whether a cycle runs or not. -/
theorem StateInv.of_cleared {s : State} (hwin : s.win = Memory.empty) (hcnt : s.cnt = 0) (hacc : s.acc = 0)
    (htpend : s.st = .idle → s.tpend = false) (hcause : s.vcause = .none ↔ s.viol = false)
    (hitems : ∀ x ∈ s.trace, x.allowed = true) : StateInv s where
  winWf := hwin ▸ Memory.empty_wf
  cntBound := by simp [hcnt]
  idleClear _ := ⟨hcnt, hacc, by simp [hwin]⟩
  waitCells _ := by simp [hwin, hcnt]
  waitSum _ := by simp [hacc, hcnt]
  idleTpend := htpend
  causeNone := hcause
  itemsOk := hitems

theorem StateInv.withInputs {s : State} (hs : StateInv s) (rest : List Input) :
    StateInv { s with inputs := rest } :=
  { hs with }

theorem StateInv.raiseViolation {s : State} (hs : StateInv s) {c : Cause} (hc : c ≠ .none) :
    StateInv (raiseViolation c s) :=
  { hs with causeNone := by cases hv : s.viol <;> simp [hv, hc, hs.causeNone] }

theorem StateInv.deferTrigger {s : State} (hs : StateInv s) (hst : s.st = .wait) :
    StateInv { s with tpend := true } :=
  { hs with idleTpend := fun hidle => by simp [hst] at hidle }

/-- The counter does not wrap when a byte is accepted (R22). -/
theorem cnt_succ_toNat {s : State} (hcnt : s.cnt.toNat < frameLen) : (s.cnt + 1).toNat = s.cnt.toNat + 1 := by
  rw [frameLen_eq] at hcnt
  bv_omega

/-- An accepted byte extends the written cells and the sum by the cell at the counter (R101, R130). -/
theorem StateInv.acceptByte {s : State} (hs : StateInv s) (d : Byte) (hst : s.st = .wait)
    (hcnt : s.cnt.toNat < frameLen) :
    StateInv { s with
      win := s.win.write s.cnt.toNat d, acc := accStep s.acc s.cnt.toNat d, cnt := s.cnt + 1 } where
  winWf := Memory.write_wf _ _ _ hs.winWf hcnt
  cntBound := (cnt_succ_toNat hcnt).le.trans hcnt
  idleClear hidle := by simp [hst] at hidle
  waitCells _ i := by
    have hcells := hs.waitCells hst i
    simp only [cnt_succ_toNat hcnt, Memory.read_write]
    split
    · simp_all
    · rw [hcells]; omega
  waitSum _ := by simp only [cnt_succ_toNat hcnt, windowSum_write, hs.waitSum hst]
  idleTpend hidle := by simp [hst] at hidle
  causeNone := hs.causeNone
  itemsOk := hs.itemsOk

theorem StateInv.applyReset {s : State} (hs : StateInv s) : StateInv (applyReset s) :=
  .of_cleared rfl rfl rfl (fun _ => rfl) (by simp) hs.itemsOk

/-! ### The invariant at reset and over a step -/

/-- Settles O30: a run starts from a state that holds nothing of a response. -/
theorem invariantHoldsAtReset : Obligations.InvariantHoldsAtReset := fun ins =>
  .of_cleared rfl rfl rfl (fun _ => rfl) (by simp [runStart, State.reset]) (by simp [runStart, State.reset])

/-- Every event keeps the invariant. -/
theorem exec_keeps_inv {i : Instr} {s t : State} (hs : StateInv s) (h : exec i s = .next t) : StateInv t := by
  have hitems : ∀ x ∈ t.trace, x.allowed = true := by
    obtain ⟨items, htrace, -, hallowed⟩ := exec_trace h
    rw [htrace]
    exact List.forall_mem_append.2 ⟨hs.itemsOk, hallowed⟩
  cases exec_eq_iff.1 h with
  | byteIdle | byteFull | endIdle | errIdle => exact hs.raiseViolation (by decide)
  | byteAccept d hst hcnt => exact hs.acceptByte d hst hcnt
  | endEmpty | errWait =>
    exact .of_cleared (endCycle_win _) (endCycle_cnt _) (endCycle_acc _) (fun _ => endCycle_tpend _)
      (by simpa using hs.causeNone) hitems
  | endPartial | endFull => exact .of_cleared rfl rfl rfl hs.idleTpend hs.causeNone hitems
  | trigIdle => exact .of_cleared rfl rfl rfl (fun hidle => by simp at hidle) hs.causeNone hitems
  | trigWait hst => exact hs.deferTrigger hst

theorem reservedCause_ne_none (c : ReservedClass) : reservedCause c ≠ .none := by cases c <;> decide

/-- Settles O31: reset clears the response, a reserved word only raises its violation, and an event keeps the invariant. -/
theorem stepKeepsTheInvariant : Obligations.StepKeepsTheInvariant := by
  intro s t hs h
  obtain ⟨off, rest, -, rfl⟩ | ⟨w, rest, c, -, -, rfl⟩ | ⟨w, rest, i, -, -, hexec⟩ := step_next s t h
  · exact (hs.withInputs rest).applyReset
  · exact (hs.withInputs rest).raiseViolation (reservedCause_ne_none c)
  · exact exec_keeps_inv (hs.withInputs rest) hexec

end Sys2Proof.Machine
end

section
/-!
The frames: what an event changes, register by register and cell by cell, and where it stops.
-/

namespace Sys2Proof.Machine

/-! ### STATUS (10_state.md R31) -/

theorem statusWord_cnt (s : State) : (statusWord s).extractLsb' 0 4 = s.cnt :=
  (BitVec.extractLsb'_append_eq_of_add_le (xlo := s.cnt) (by decide)).trans BitVec.extractLsb'_eq_self

theorem statusWord_busy (s : State) : (statusWord s).getLsbD 4 = busy s :=
  (BitVec.getLsbD_append (y := s.cnt)).trans <|
    (BitVec.getLsbD_append (y := BitVec.ofBool (busy s))).trans (by simp)

theorem statusWord_tpend (s : State) : (statusWord s).getLsbD 5 = s.tpend :=
  (BitVec.getLsbD_append (y := s.cnt)).trans <|
    (BitVec.getLsbD_append (y := BitVec.ofBool (busy s))).trans <|
      (BitVec.getLsbD_append (y := BitVec.ofBool s.tpend)).trans (by simp)

theorem statusWord_viol (s : State) : (statusWord s).getLsbD 6 = s.viol :=
  (BitVec.getLsbD_append (y := s.cnt)).trans <|
    (BitVec.getLsbD_append (y := BitVec.ofBool (busy s))).trans <|
      (BitVec.getLsbD_append (y := BitVec.ofBool s.tpend)).trans <|
        (BitVec.getLsbD_append (y := BitVec.ofBool s.viol)).trans (by simp)

/-- STATUS is ACC and VCAUSE above the 7 bits of the flags and the counter. -/
theorem statusWord_extract_above_flags (s : State) (start len : Nat) (h : 7 ≤ start) :
    (statusWord s).extractLsb' start len = (s.acc ++ causeCode s.vcause).extractLsb' (start - 7) len := by
  unfold statusWord
  rw [BitVec.extractLsb'_append_eq_of_le (by omega), BitVec.extractLsb'_append_eq_of_le (by omega),
    BitVec.extractLsb'_append_eq_of_le (by omega), BitVec.extractLsb'_append_eq_of_le (by omega)]
  simp only [Nat.sub_sub]

theorem statusWord_vcause (s : State) : (statusWord s).extractLsb' 7 3 = causeCode s.vcause :=
  (statusWord_extract_above_flags s 7 3 (by decide)).trans <|
    (BitVec.extractLsb'_append_eq_of_add_le (xlo := causeCode s.vcause) (by decide)).trans BitVec.extractLsb'_eq_self

theorem statusWord_acc (s : State) : (statusWord s).extractLsb' 10 8 = s.acc :=
  (statusWord_extract_above_flags s 10 8 (by decide)).trans <|
    (BitVec.extractLsb'_append_eq_of_le (xlo := causeCode s.vcause) (by decide)).trans BitVec.extractLsb'_eq_self

theorem busy_eq_decide (s : State) : busy s = decide (s.st = .wait) := by
  rw [Bool.eq_iff_iff, busy_eq_true, decide_eq_true_iff]

theorem statusWord_reset : statusWord State.reset = 0x00000#18 := by decide

/-- Settles O9, field by field. -/
theorem statusShowsTheState : Obligations.StatusShowsTheState :=
  ⟨fun s => ⟨statusWord_cnt s, (statusWord_busy s).trans (busy_eq_decide s), statusWord_tpend s, statusWord_viol s,
    statusWord_vcause s, statusWord_acc s⟩, statusWord_reset⟩

/-- Settles O8: each value is that of the definition of `State.reset`. -/
theorem stateAfterResetHoldsTheTablesValues : Obligations.StateAfterResetHoldsTheTablesValues :=
  ⟨rfl, rfl, rfl, Memory.read_empty, rfl, rfl, rfl, statusWord_reset⟩

/-! ### What a decode depends on (41_checksum_extract.md R136) -/

theorem readCell_congr {s t : State} (hwin : s.win = t.win) (i : Nat) : readCell s i = readCell t i := by
  simp only [readCell, hwin]

/-- A decode looks at the window and the accumulator only. -/
theorem decodeFrame_congr {s t : State} (hwin : s.win = t.win) (hacc : s.acc = t.acc) :
    decodeFrame s = decodeFrame t := by
  simp only [decodeFrame, readCell_congr hwin, hacc]

/-- Settles O29: an event that issues a request clears the response, since every other event leaves the trace as it was or
appends a record only. -/
theorem requestIssueForgetsTheResponse : Obligations.RequestIssueForgetsTheResponse := by
  refine ⟨fun i s t h hreq => ?_, fun s t => decodeFrame_congr⟩
  cases exec_eq_iff.1 h with
  | byteIdle | byteFull | byteAccept | endIdle | errIdle | trigWait => exact absurd hreq (Nat.lt_irrefl _)
  | endEmpty | errWait => exact ⟨endCycle_cnt _, endCycle_acc _, by simp⟩
  | endPartial | endFull | trigIdle => exact ⟨rfl, rfl, Memory.read_empty⟩

/-! ### Violations are not read by events (10_state.md R28) -/

theorem endCycle_withViolation (s : State) (v : Bool) (c : Cause) :
    endCycle { s with viol := v, vcause := c } = { endCycle s with viol := v, vcause := c } := by
  simp only [endCycle]
  split <;> rfl

/-- Settles O13: with other values of `viol` and `vcause` the same case of the event applies. -/
theorem eventsRunTheSameAfterAViolation : Obligations.EventsRunTheSameAfterAViolation := by
  intro i s t v c h
  cases exec_eq_iff.1 h with
  | byteIdle d hst => exact ⟨_, _, exec_eq_iff.2 (.byteIdle d hst)⟩
  | byteFull d hst hcnt => exact ⟨_, _, exec_eq_iff.2 (.byteFull d hst hcnt)⟩
  | byteAccept d hst hcnt => exact ⟨v, c, exec_eq_iff.2 (.byteAccept d hst hcnt)⟩
  | endIdle hst => exact ⟨_, _, exec_eq_iff.2 (.endIdle hst)⟩
  | endEmpty hst hcnt =>
    exact ⟨v, c, endCycle_withViolation (emitReport .eos s) v c ▸ exec_eq_iff.2 (.endEmpty hst hcnt)⟩
  | endPartial hst hpos hcnt => exact ⟨v, c, exec_eq_iff.2 (.endPartial hst hpos hcnt)⟩
  | endFull r hst hcnt hr =>
    exact ⟨v, c, exec_eq_iff.2 (.endFull r hst hcnt ((decodeFrame_congr rfl rfl).trans hr))⟩
  | errIdle hst => exact ⟨_, _, exec_eq_iff.2 (.errIdle hst)⟩
  | errWait hst =>
    exact ⟨v, c, endCycle_withViolation (emitReport (.ioError s.cnt) s) v c ▸ exec_eq_iff.2 (.errWait hst)⟩
  | trigIdle hst => exact ⟨v, c, exec_eq_iff.2 (.trigIdle hst)⟩
  | trigWait hst => exact ⟨v, c, exec_eq_iff.2 (.trigWait hst)⟩

/-! ### Where an event stops (10_state.md R24, 20_memory.md R50) -/

/-- A decode fails on one of the cells 0, 4, 5 and 8, which has no value. -/
theorem decodeFrame_error_cell {s : State} {f : Fault} (h : decodeFrame s = .error f) :
    ∃ a ∈ [0, 4, 5, 8], s.win.read a = none ∧ f = .unwrittenCell a := by
  obtain ⟨a, ha, hread, hf⟩ := decodeFrame_error s f h
  refine ⟨a, ?_, hread, hf⟩
  simp only [ckIdx_eq, rawHi_eq, rawLo_eq, startIdx_eq, List.mem_cons, List.not_mem_nil] at ha ⊢
  tauto

/-- A decode with one of these cells missing fails. -/
theorem decodeFrame_error_of_missing {s : State} {a : Nat} (ha : a ∈ [0, 4, 5, 8]) (hread : s.win.read a = none) :
    ∃ f, decodeFrame s = .error f := by
  cases hr : decodeFrame s with
  | error f => exact ⟨f, rfl⟩
  | ok r =>
    obtain ⟨t, hi, lo, b0, h8, h4, h5, h0, -⟩ := decodeFrame_ok s r hr
    simp only [List.mem_cons, List.not_mem_nil, or_false] at ha
    obtain rfl | rfl | rfl | rfl := ha <;> simp_all

/-- Settles O21: the two cases of an event that fault. -/
theorem eventsStopOnlyOnMissingCells : Obligations.EventsStopOnlyOnMissingCells := by
  refine fun i s => ⟨fun r h => (nomatch exec_eq_iff.1 h), ⟨fun ⟨f, h⟩ => ?_, ?_⟩, fun f h => ?_⟩
  · cases exec_eq_iff.1 h with
    | byteNoCell d hst hcnt => exact ⟨hst, .inl ⟨d, rfl, hcnt⟩⟩
    | endMissing f hst hcnt hf =>
      obtain ⟨a, ha, hread, -⟩ := decodeFrame_error_cell hf
      exact ⟨hst, .inr ⟨rfl, hcnt, a, ha, hread⟩⟩
  · rintro ⟨hst, ⟨d, rfl, hcnt⟩ | ⟨rfl, hcnt, a, ha, hread⟩⟩
    · exact ⟨_, exec_eq_iff.2 (.byteNoCell d hst hcnt)⟩
    · obtain ⟨f, hf⟩ := decodeFrame_error_of_missing ha hread
      exact ⟨f, exec_eq_iff.2 (.endMissing f hst hcnt hf)⟩
  · cases exec_eq_iff.1 h with
    | byteNoCell d => exact .inl ⟨d, rfl, rfl⟩
    | endMissing f hst hcnt hf => exact .inr ⟨rfl, decodeFrame_error_cell hf⟩

/-! ### The window (10_state.md R23, 42_cycle_control.md R152, R153) -/

theorem cnt_eq_nine_iff (s : State) : s.cnt = 9 ↔ s.cnt.toNat = frameLen :=
  BitVec.toNat_inj.symm

/-- Settles O22: a raised violation and a deferred trigger leave the window, an accepted byte writes at the counter, and
every other case empties it. -/
theorem windowCellsAfterAnEvent : Obligations.WindowCellsAfterAnEvent := by
  intro i s t a h
  cases exec_eq_iff.1 h with
  | byteFull d hst hcnt => simp [hst, (cnt_eq_nine_iff s).2 hcnt]
  | byteAccept d hst hcnt =>
    have hne : s.cnt ≠ 9#4 := fun h9 => hcnt.ne ((cnt_eq_nine_iff s).1 h9)
    simp [hst, hne]
  | byteIdle _ hst | endIdle hst | endEmpty hst | endPartial hst | endFull _ hst | errIdle hst | errWait hst
  | trigIdle hst | trigWait hst => simp [hst]

/-! ### The registers (10_state.md R20) -/

theorem exec_inputs {i : Instr} {s t : State} (h : exec i s = .next t) : t.inputs = s.inputs := by
  cases exec_eq_iff.1 h with
  | endEmpty | errWait => exact endCycle_inputs _
  | byteIdle | byteFull | byteAccept | endIdle | endPartial | endFull | errIdle | trigIdle | trigWait => rfl

theorem exec_st_changes {i : Instr} {s t : State} (h : exec i s = .next t) (hne : t.st ≠ s.st) :
    (i = .trig ∧ s.st = .idle) ∨ (i = .err ∧ s.st = .wait) ∨ (i = .endResp ∧ s.st = .wait ∧ s.cnt = 0) := by
  cases exec_eq_iff.1 h with
  | trigIdle hst => exact .inl ⟨rfl, hst⟩
  | errWait hst => exact .inr (.inl ⟨rfl, hst⟩)
  | endEmpty hst hcnt => exact .inr (.inr ⟨rfl, hst, hcnt⟩)
  | byteIdle | byteFull | byteAccept | endIdle | endPartial | endFull | errIdle | trigWait => exact absurd rfl hne

theorem exec_cnt_changes {i : Instr} {s t : State} (h : exec i s = .next t) (hne : t.cnt ≠ s.cnt) :
    (∃ d, i = .byte d ∧ s.st = .wait ∧ t.cnt = s.cnt + 1) ∨
    (t.cnt = 0 ∧ ((i = .trig ∧ s.st = .idle) ∨ (i = .err ∧ s.st = .wait) ∨ (i = .endResp ∧ s.st = .wait))) := by
  cases exec_eq_iff.1 h with
  | byteAccept d hst => exact .inl ⟨d, rfl, hst, rfl⟩
  | trigIdle hst => exact .inr ⟨rfl, .inl ⟨rfl, hst⟩⟩
  | errWait hst => exact .inr ⟨endCycle_cnt _, .inr (.inl ⟨rfl, hst⟩)⟩
  | endEmpty hst => exact .inr ⟨endCycle_cnt _, .inr (.inr ⟨rfl, hst⟩)⟩
  | endPartial hst | endFull _ hst => exact .inr ⟨rfl, .inr (.inr ⟨rfl, hst⟩)⟩
  | byteIdle | byteFull | endIdle | errIdle | trigWait => exact absurd rfl hne

theorem accStep_of_ne {acc d : Byte} {i : Nat} (hne : accStep acc i d ≠ acc) : accStep acc i d = acc + d := by
  unfold accStep at hne ⊢
  split <;> simp_all

theorem exec_acc_changes {i : Instr} {s t : State} (h : exec i s = .next t) (hne : t.acc ≠ s.acc) :
    (∃ d, i = .byte d ∧ s.st = .wait ∧ t.acc = s.acc + d) ∨
    (t.acc = 0 ∧ ((i = .trig ∧ s.st = .idle) ∨ (i = .err ∧ s.st = .wait) ∨ (i = .endResp ∧ s.st = .wait))) := by
  cases exec_eq_iff.1 h with
  | byteAccept d hst => exact .inl ⟨d, rfl, hst, accStep_of_ne hne⟩
  | trigIdle hst => exact .inr ⟨rfl, .inl ⟨rfl, hst⟩⟩
  | errWait hst => exact .inr ⟨endCycle_acc _, .inr (.inl ⟨rfl, hst⟩)⟩
  | endEmpty hst => exact .inr ⟨endCycle_acc _, .inr (.inr ⟨rfl, hst⟩)⟩
  | endPartial hst | endFull _ hst => exact .inr ⟨rfl, .inr (.inr ⟨rfl, hst⟩)⟩
  | byteIdle | byteFull | endIdle | errIdle | trigWait => exact absurd rfl hne

theorem exec_tpend_changes {i : Instr} {s t : State} (h : exec i s = .next t) (hne : t.tpend ≠ s.tpend) :
    (i = .trig ∧ s.st = .wait ∧ t.tpend = true) ∨
    (s.st = .wait ∧ t.tpend = false ∧ (i = .err ∨ (i = .endResp ∧ s.cnt = 0))) := by
  cases exec_eq_iff.1 h with
  | trigWait hst => exact .inl ⟨rfl, hst, rfl⟩
  | errWait hst => exact .inr ⟨hst, endCycle_tpend _, .inl rfl⟩
  | endEmpty hst hcnt => exact .inr ⟨hst, endCycle_tpend _, .inr ⟨rfl, hcnt⟩⟩
  | byteIdle | byteFull | byteAccept | endIdle | endPartial | endFull | errIdle | trigIdle => exact absurd rfl hne

/-- A raised violation shows only if it is the first one (R28, R29). -/
theorem viol_of_raiseViolation_changes {c : Cause} {s : State}
    (hne : (raiseViolation c s).viol ≠ s.viol ∨ (raiseViolation c s).vcause ≠ s.vcause) : s.viol = false := by
  cases hv : s.viol with
  | false => rfl
  | true => simp [hv] at hne

theorem exec_violation_changes {i : Instr} {s t : State} (h : exec i s = .next t)
    (hne : t.viol ≠ s.viol ∨ t.vcause ≠ s.vcause) :
    t = { s with viol := true, vcause := t.vcause } ∧ s.viol = false ∧
      ((∃ d, i = .byte d ∧ (s.st = .idle ∨ s.cnt = 9)) ∨ (i = .endResp ∧ s.st = .idle) ∨
        (i = .err ∧ s.st = .idle)) := by
  cases exec_eq_iff.1 h with
  | byteIdle d hst => exact ⟨rfl, viol_of_raiseViolation_changes hne, .inl ⟨d, rfl, .inl hst⟩⟩
  | byteFull d hst hcnt =>
    exact ⟨rfl, viol_of_raiseViolation_changes hne, .inl ⟨d, rfl, .inr ((cnt_eq_nine_iff s).2 hcnt)⟩⟩
  | endIdle hst => exact ⟨rfl, viol_of_raiseViolation_changes hne, .inr (.inl ⟨rfl, hst⟩)⟩
  | errIdle hst => exact ⟨rfl, viol_of_raiseViolation_changes hne, .inr (.inr ⟨rfl, hst⟩)⟩
  | endEmpty | errWait => simp at hne
  | byteAccept | endPartial | endFull | trigIdle | trigWait => exact absurd hne (by simp)

/-- Settles O23, register by register. -/
theorem registersChangeOnlyWhereTheTableSays : Obligations.RegistersChangeOnlyWhereTheTableSays :=
  fun _ _ _ h => ⟨exec_inputs h, exec_st_changes h, exec_cnt_changes h, exec_acc_changes h, exec_tpend_changes h,
    exec_violation_changes h⟩

/-! ### Deferred triggers (10_state.md R27, 42_cycle_control.md R156) -/

/-- Settles O24: a second trigger sets a flag that is set, and ERR takes the pending trigger. -/
theorem triggersDuringACycleCoalesce : Obligations.TriggersDuringACycleCoalesce := by
  intro s hst
  exact ⟨_, _, exec_eq_iff.2 (.trigWait hst), rfl, exec_eq_iff.2 (.trigWait hst), exec_eq_iff.2 (.errWait hst), by simp,
    endCycle_tpend _, by simp [State.requests, requestWord]⟩

end Sys2Proof.Machine
end

section
/-!
The source's contract (20_memory.md R56, 70_reset_and_hazards.md R208): in a state that satisfies the invariant every input
is answered, and an event word raises a violation exactly if it breaks the contract.
-/

namespace Sys2Proof.Machine

/-! ### Every input is answered (60_exceptions.md R175) -/

/-- The window is full when the counter says so, so a decode finds its cells (R25). -/
theorem StateInv.decodeFrame_ne_error {s : State} (hs : StateInv s) (hst : s.st = .wait) (hcnt : frameLen ≤ s.cnt.toNat)
    (f : Fault) : decodeFrame s ≠ .error f := by
  intro hf
  obtain ⟨a, ha, hread, -⟩ := decodeFrame_error_cell hf
  have hlt : a < s.cnt.toNat := by
    simp only [frameLen_eq, List.mem_cons, List.not_mem_nil, or_false] at ha hcnt
    omega
  simpa [hread] using (hs.waitCells hst a).2 hlt

theorem exec_answers {s : State} (hs : StateInv s) (i : Instr) : ∃ t, exec i s = .next t := by
  cases h : exec i s with
  | next t => exact ⟨t, rfl⟩
  | fault f =>
    cases exec_eq_iff.1 h with
    | byteNoCell d hst hcnt => exact absurd hs.cntBound hcnt.not_ge
    | endMissing f hst hcnt hf => exact absurd hf (hs.decodeFrame_ne_error hst hcnt f)
  | refused r => exact nomatch exec_eq_iff.1 h

theorem step_answers {s : State} {x : Input} {rest : List Input} (hs : StateInv s) (hin : s.inputs = x :: rest) :
    ∃ t, step s = .next t := by
  cases x with
  | reset off => exact ⟨_, step_reset s off rest hin⟩
  | event w =>
    cases hd : decode w with
    | reserved c => exact ⟨_, step_reserved s w rest c hin hd⟩
    | event i => rw [step_event s w rest i hin hd]; exact exec_answers (hs.withInputs rest) i

/-! ### Violations are breaches of the contract (R177, R178) -/

/-- An event raises a violation exactly if the source owes no such event (R56). -/
theorem exec_viol {i : Instr} {s t : State} (h : exec i s = .next t) :
    t.viol = (s.viol || !sourceMay (outstanding s) i) := by
  cases exec_eq_iff.1 h with
  | byteIdle d hst | endIdle hst | errIdle hst => simp [outstanding, hst, sourceMay]
  | byteFull d hst hcnt => simp [outstanding, hst, sourceMay, hcnt]
  | byteAccept d hst hcnt => simp [outstanding, hst, sourceMay, hcnt.not_ge]
  | endEmpty hst | endPartial hst | endFull _ hst | errWait hst => simp [outstanding, hst, sourceMay]
  | trigIdle | trigWait => simp [sourceMay]

theorem inputConforms_event {w : EventWord} {i : Instr} (s : State) (hd : decode w = .event i) :
    inputConforms s (.event w) = sourceMay (outstanding s) i := by
  simp only [inputConforms, hd]

theorem inputConforms_reserved {w : EventWord} {c : ReservedClass} (s : State) (hd : decode w = .reserved c) :
    inputConforms s (.event w) = false := by
  simp only [inputConforms, hd]

/-- A word raises a violation exactly if it breaks the contract or is reserved (R208). -/
theorem step_viol {s t : State} {w : EventWord} {rest : List Input} (hin : s.inputs = .event w :: rest)
    (h : step s = .next t) : t.viol = (s.viol || !inputConforms s (.event w)) := by
  cases hd : decode w with
  | reserved c =>
    rw [step_reserved s w rest c hin hd] at h
    cases h
    simp [inputConforms_reserved s hd]
  | event i =>
    rw [step_event s w rest i hin hd] at h
    rw [inputConforms_event s hd]
    exact exec_viol (s := { s with inputs := rest }) h

/-- Settles O14: every input is answered, and the answer's `viol` is that of `step_viol`. -/
theorem violationsAreExactlyContractBreaches : Obligations.ViolationsAreExactlyContractBreaches := by
  intro s w rest hs hviol hin
  obtain ⟨t, ht⟩ := step_answers hs hin
  exact ⟨t, ht, by simp [State.faulted, step_viol hin ht, hviol]⟩

/-! ### Runs that keep the contract -/

theorem step_viol_of_conforms {s t : State} {x : Input} {rest : List Input} (hin : s.inputs = x :: rest)
    (hviol : s.viol = false) (hx : inputConforms s x = true) (h : step s = .next t) : t.viol = false := by
  cases x with
  | reset off => rw [step_reset s off rest hin] at h; cases h; rfl
  | event w => simp [step_viol hin h, hviol, hx]

/-- Settles O35, by induction on the number of steps: a step that keeps the contract keeps the invariant and `viol` at 0. -/
theorem conformingEnvironmentNeverViolates : Obligations.ConformingEnvironmentNeverViolates := by
  intro n
  induction n with
  | zero => exact fun s hs hviol _ => ⟨s, rfl, (mayBeFinal_eq_true s).2 hviol, hs⟩
  | succ n ih =>
    rintro s hs hviol ⟨⟨x, rest, hin, hx⟩, hnext⟩
    obtain ⟨t, ht⟩ := step_answers hs hin
    obtain ⟨u, hrun, hu⟩ :=
      ih t (stepKeepsTheInvariant s t hs ht) (step_viol_of_conforms hin hviol hx ht) (hnext t ht)
    exact ⟨u, (runSteps_succ_of_step n s t ht).trans hrun, hu⟩

end Sys2Proof.Machine
end

section
/-!
The bytes of a response in the window (20_memory.md R52, R53).
-/

namespace Sys2Proof.Machine

/-! ### Accepting bytes (40_frame_read.md R101) -/

/-- The state after an accepted byte, see `exec_byte_accept`. -/
def acceptByte (s : State) (d : Byte) : State :=
  { s with win := s.win.write s.cnt.toNat d, acc := accStep s.acc s.cnt.toNat d, cnt := s.cnt + 1 }

theorem exec_byte_accept {s : State} (d : Byte) (hst : s.st = .wait) (hcnt : s.cnt.toNat < frameLen) :
    exec (.byte d) s = .next (acceptByte s d) :=
  exec_eq_iff.2 (.byteAccept d hst hcnt)

/-- The state after the accepted bytes of a list, in stream order, see `runSteps_bytes`. -/
def acceptBytes (s : State) (bs : List Byte) : State := bs.foldl acceptByte s

/-- Accepted bytes change the window, the accumulator and the counter only. -/
theorem acceptBytes_frame (s : State) (bs : List Byte) :
    acceptBytes s bs =
      { s with win := (acceptBytes s bs).win, acc := (acceptBytes s bs).acc, cnt := (acceptBytes s bs).cnt } := by
  induction bs generalizing s with
  | nil => rfl
  | cons d bs ih => exact ih (acceptByte s d)

@[simp] theorem acceptBytes_st (s : State) (bs : List Byte) : (acceptBytes s bs).st = s.st := by
  rw [acceptBytes_frame]

@[simp] theorem acceptBytes_tpend (s : State) (bs : List Byte) : (acceptBytes s bs).tpend = s.tpend := by
  rw [acceptBytes_frame]

@[simp] theorem acceptBytes_viol (s : State) (bs : List Byte) : (acceptBytes s bs).viol = s.viol := by
  rw [acceptBytes_frame]

@[simp] theorem acceptBytes_vcause (s : State) (bs : List Byte) : (acceptBytes s bs).vcause = s.vcause := by
  rw [acceptBytes_frame]

@[simp] theorem acceptBytes_trace (s : State) (bs : List Byte) : (acceptBytes s bs).trace = s.trace := by
  rw [acceptBytes_frame]

@[simp] theorem acceptBytes_inputs (s : State) (bs : List Byte) : (acceptBytes s bs).inputs = s.inputs := by
  rw [acceptBytes_frame]

/-- The run over BYTE words that fit into the window. -/
theorem runSteps_bytes (bs : List Byte) (s : State) (rest : List Input) (hst : s.st = .wait)
    (hlen : s.cnt.toNat + bs.length ≤ frameLen)
    (hin : s.inputs = bs.map (fun d => Input.event (encode (.byte d))) ++ rest) :
    runSteps bs.length s = .next (acceptBytes { s with inputs := rest } bs) := by
  induction bs generalizing s with
  | nil => subst hin; rfl
  | cons d bs ih =>
    rw [List.length_cons] at hlen
    have hcnt : s.cnt.toNat < frameLen := by omega
    have hstep := (step_event s _ _ _ hin (Laws.EventEncoding.byte d).2).trans (exec_byte_accept d hst hcnt)
    refine (runSteps_succ_of_step _ _ _ hstep).trans (ih _ hst ?_ rfl)
    have hsucc : (s.cnt + 1).toNat = s.cnt.toNat + 1 := cnt_succ_toNat hcnt
    simp only [acceptByte, hsucc]
    omega

/-! ### Stream order (R53) -/

/-- The counter counts the bytes of a list, and the window holds them in its order and nothing else. -/
def Received (s : State) (bs : List Byte) : Prop := s.cnt.toNat = bs.length ∧ ∀ i, s.win.read i = bs[i]?

/-- At a response's start nothing is received (R25). -/
theorem received_nil {s : State} (hs : StateInv s) (hst : s.st = .wait) (hcnt : s.cnt = 0) : Received s [] := by
  refine ⟨by simp [hcnt], fun i => ?_⟩
  have hnone : ¬ (s.win.read i).isSome = true := by simp [hs.waitCells hst i, hcnt]
  simpa using hnone

/-- The next byte goes to the index that is the number of bytes before it. -/
theorem Received.acceptByte {s : State} {bs : List Byte} (h : Received s bs) (d : Byte) (hlen : bs.length < frameLen) :
    Received (acceptByte s d) (bs ++ [d]) := by
  obtain ⟨hcnt, hread⟩ := h
  refine ⟨?_, fun i => ?_⟩
  · rw [List.length_append, ← hcnt]
    exact cnt_succ_toNat (hcnt ▸ hlen)
  · simp only [Machine.acceptByte, Memory.read_write, hread, hcnt]
    obtain hlt | rfl | hgt := Nat.lt_trichotomy i bs.length
    · rw [if_neg hlt.ne, List.getElem?_append_left hlt]
    · rw [if_pos rfl, List.getElem?_concat_length]
    · rw [if_neg hgt.ne', List.getElem?_eq_none hgt.le, List.getElem?_eq_none (by simpa using hgt)]

theorem Received.acceptBytes {s : State} {bs : List Byte} (h : Received s bs) (ds : List Byte)
    (hlen : bs.length + ds.length ≤ frameLen) : Received (acceptBytes s ds) (bs ++ ds) := by
  induction ds generalizing s bs with
  | nil => rwa [List.append_nil]
  | cons d ds ih =>
    rw [List.length_cons] at hlen
    rw [List.append_cons]
    exact ih (h.acceptByte d (by omega)) (by rw [List.length_append, List.length_singleton]; omega)

/-- Settles O33: the run accepts the bytes, which changes nothing beside the window, the accumulator and the counter. -/
theorem streamOrderIsIndexOrder : Obligations.StreamOrderIsIndexOrder := by
  intro bs s rest hs hst hcnt hlen hin
  have hrun := runSteps_bytes bs s rest hst (by simpa [hcnt] using hlen) hin
  obtain ⟨hcount, hread⟩ :=
    (received_nil (hs.withInputs rest) hst hcnt).acceptBytes bs (by simpa using hlen)
  refine ⟨⟨_, hrun, acceptBytes_viol _ bs, acceptBytes_vcause _ bs⟩, (runClaim_of_next _ _ _ _ hrun).2 fun _ => ?_⟩
  exact ⟨acceptBytes_inputs _ bs, (acceptBytes_st _ bs).trans hst, hcount, hread, acceptBytes_trace _ bs⟩

/-! ### The raw count (R52, 41_checksum_extract.md R134) -/

theorem extractRawCount_toNat (hi lo : Byte) : (extractRawCount hi lo).toNat = hi.toNat * 256 + lo.toNat := by
  rw [extractRawCount, BitVec.toNat_append, ← Nat.shiftLeft_add_eq_or_of_lt lo.isLt, Nat.shiftLeft_eq]

theorem extractRawCount_high (hi lo : Byte) : (extractRawCount hi lo).extractLsb' 8 8 = hi :=
  (BitVec.extractLsb'_append_eq_of_le (xlo := lo) (by decide)).trans BitVec.extractLsb'_eq_self

theorem extractRawCount_low (hi lo : Byte) : (extractRawCount hi lo).extractLsb' 0 8 = lo :=
  (BitVec.extractLsb'_append_eq_of_add_le (xlo := lo) (by decide)).trans BitVec.extractLsb'_eq_self

/-- A 16-bit read of two cells that have values puts the first one on top (R12). -/
theorem readPair_of_reads {s : State} {i : Nat} {hi lo : Byte} (hlt : i + 1 < frameLen) (hhi : s.win.read i = some hi)
    (hlo : s.win.read (i + 1) = some lo) : readPair s i = .ok (hi ++ lo) := by
  simp only [readPair, (readCell_ok s i hi).2 ⟨by omega, hhi⟩, (readCell_ok s (i + 1) lo).2 ⟨hlt, hlo⟩]

/-- Settles O41: the extractor's number and its two bytes, and the read of cells 4 and 5. -/
theorem rawCountIsBigEndian : Obligations.RawCountIsBigEndian :=
  ⟨fun hi lo => ⟨extractRawCount_toNat hi lo, extractRawCount_high hi lo, extractRawCount_low hi lo⟩,
    fun _ _ _ hhi hlo => readPair_of_reads (by decide) hhi hlo⟩

end Sys2Proof.Machine
end

section
/-!
The encoding of events (30_encoding.md R70 to R75, R86): the decoder by a word's two fields, and as the inverse of the
encoder.
-/

namespace Sys2Proof

/-! ### The fields of a word as numbers (R70) -/

theorem eventOp_toNat (w : EventWord) : (eventOp w).toNat = w.toNat / 256 := by
  rw [eventOp, BitVec.extractLsb'_toNat, Nat.shiftRight_eq_div_pow]
  omega

theorem eventData_toNat (w : EventWord) : (eventData w).toNat = w.toNat % 256 := by
  rw [eventData, BitVec.extractLsb'_toNat, Nat.shiftRight_zero]

theorem eventOp_eq_zero_iff (w : EventWord) : eventOp w = 0 ↔ w.toNat / 256 = 0 := by
  rw [← BitVec.toNat_inj, eventOp_toNat]
  rfl

theorem eventData_eq_zero_iff (w : EventWord) : eventData w = 0 ↔ w.toNat % 256 = 0 := by
  rw [← BitVec.toNat_inj, eventData_toNat]
  rfl

/-! ### The decoder by its outcomes (R75) -/

theorem eventOfOp_eq_none_iff (op : BitVec 3) (d : Byte) : eventOfOp op d = none ↔ 4 ≤ op.toNat := by
  unfold eventOfOp
  split
  case h_5 h0 h1 h2 h3 =>
    have hne : op ≠ 0b000#3 ∧ op ≠ 0b001#3 ∧ op ≠ 0b010#3 ∧ op ≠ 0b011#3 := ⟨h0, h1, h2, h3⟩
    simp only [true_iff]
    bv_omega
  all_goals simp

/-- The word of the event an opcode names is that opcode and its data (R71). -/
theorem encode_of_eventOfOp {op : BitVec 3} {d : Byte} {i : Instr} (hi : eventOfOp op d = some i)
    (hdata : op = 0 ∨ d = 0) : encode i = (op ++ d : BitVec (3 + 8)) := by
  unfold eventOfOp at hi
  split at hi <;> cases hi
  case h_1 => rfl
  all_goals
    obtain hop | rfl := hdata
    · exact absurd hop (by decide)
    · rfl

/-- A word that decodes to an event has an opcode that names it, and data only with BYTE's opcode. -/
theorem eventOfOp_of_decode {w : EventWord} {i : Instr} (h : decode w = .event i) :
    eventOfOp (eventOp w) (eventData w) = some i ∧ (eventOp w = 0 ∨ eventData w = 0) := by
  unfold decode at h
  split at h
  · cases h
  · split at h <;> cases h
    exact ⟨‹_›, by tauto⟩

theorem decode_encode (i : Instr) : decode (encode i) = .event i :=
  match i with
  | .byte d  => (Laws.EventEncoding.byte d).2
  | .endResp => Laws.EventEncoding.endResp.2
  | .err     => Laws.EventEncoding.err.2
  | .trig    => Laws.EventEncoding.trig.2

theorem decode_eq_event_iff {w : EventWord} {i : Instr} : decode w = .event i ↔ w = encode i := by
  refine ⟨fun h => ?_, fun h => h ▸ decode_encode i⟩
  obtain ⟨hi, hdata⟩ := eventOfOp_of_decode h
  exact (eventWord_eq_fields w).trans (encode_of_eventOfOp hi hdata).symm

theorem decode_eq_reservedOp_iff {w : EventWord} : decode w = .reserved .reservedOp ↔ 4 ≤ w.toNat / 256 := by
  rw [← eventOp_toNat, ← eventOfOp_eq_none_iff (eventOp w) (eventData w), decode]
  cases eventOfOp (eventOp w) (eventData w) with
  | none => simp
  | some i => simp only [reduceCtorEq, iff_false]; split <;> simp

theorem decode_eq_reservedData_iff {w : EventWord} :
    decode w = .reserved .reservedData ↔ w.toNat / 256 < 4 ∧ w.toNat / 256 ≠ 0 ∧ w.toNat % 256 ≠ 0 := by
  rw [← Nat.not_le, Ne, Ne, ← eventOp_eq_zero_iff, ← eventData_eq_zero_iff, ← eventOp_toNat,
    ← eventOfOp_eq_none_iff (eventOp w) (eventData w), decode]
  cases eventOfOp (eventOp w) (eventData w) with
  | none => simp
  | some i => simp only [reduceCtorEq, not_false_eq_true, true_and]; split <;> simp_all

/-- Settles O2: a word is its two fields, and those of a word that decodes to an event are the event's own. -/
theorem eachEventHasExactlyOneWord : Obligations.EachEventHasExactlyOneWord := fun _ _ => decode_eq_event_iff

/-! ### The words as numbers (R86) -/

theorem encode_byte_toNat (d : Byte) : (encode (.byte d)).toNat = d.toNat := by
  rw [encode, BitVec.toNat_append]
  simp

theorem encode_endResp_toNat : (encode .endResp).toNat = 0x100 := by decide

theorem encode_err_toNat : (encode .err).toNat = 0x200 := by decide

theorem encode_trig_toNat : (encode .trig).toNat = 0x300 := by decide

/-- A word with an event's number decodes to that event. -/
theorem decode_of_toNat {w : EventWord} {i : Instr} (h : w.toNat = (encode i).toNat) : decode w = .event i :=
  decode_eq_event_iff.2 (BitVec.eq_of_toNat_eq h)

/-- The table's reading takes an event from its word's number and from no other (log entry 3). -/
theorem decodeTableWord_eq_some_iff {nbits w : Nat} {i : Instr} :
    decodeTableWord nbits w = some i ↔ w = (encode i).toNat := by
  have hlt : (encode i).toNat < 2 ^ 11 := (encode i).isLt
  unfold decodeTableWord
  split
  case isTrue hw =>
    have hword : (BitVec.ofNat 11 w).toNat = w := Nat.mod_eq_of_lt hw
    have hevent : decode (BitVec.ofNat 11 w) = .event i ↔ w = (encode i).toNat := by
      rw [decode_eq_event_iff, ← BitVec.toNat_inj, hword]
    rw [← hevent]
    cases decode (BitVec.ofNat 11 w) <;> simp
  case isFalse hw =>
    simp only [reduceCtorEq, false_iff]
    omega

/-- Settles O4: `decodeTableWord_eq_some_iff` at each event's number. -/
theorem tableWordsAreTheFixedWords : Obligations.TableWordsAreTheFixedWords := by
  intro nbits w
  simp only [decodeTableWord_eq_some_iff, encode_byte_toNat, encode_endResp_toNat, encode_err_toNat, encode_trig_toNat,
    Nat.zero_add, implies_true, and_self]

/-- Settles O1: each decoded word is the word of its event. -/
theorem fixedWordsDecodeToTheirEvents : Obligations.FixedWordsDecodeToTheirEvents := by
  refine ⟨decode_encode .endResp, decode_encode .err, decode_encode .trig, decode_encode (.byte 0x00),
    decode_encode (.byte 0xBC), decode_encode (.byte 0xFF), rfl, rfl, rfl, fun d => ?_⟩
  rw [encode_byte_toNat, Nat.zero_add]

end Sys2Proof
end

section
/-!
The decoder over all words (30_encoding.md R75): their outcomes in the order of their numbers.
-/

namespace Sys2Proof.Machine

/-- What `n` words from the number `a` on decode to, in order; see `wordCount_eq_countP`. -/
def decodedFrom (a n : Nat) : List Decoded := (List.range n).map fun k => decode (BitVec.ofNat 11 (a + k))

theorem wordCount_eq_countP (p : Decoded → Bool) : wordCount p = (decodedFrom 0 2048).countP p := by
  simp only [wordCount, decodedFrom, List.countP_map, Nat.zero_add]
  rfl

theorem decodedFrom_add (a m n : Nat) : decodedFrom a (m + n) = decodedFrom a m ++ decodedFrom (a + m) n := by
  simp only [decodedFrom, List.range_add, List.map_append, List.map_map, Nat.add_assoc, Function.comp_def]

/-- Words that all decode to the same. -/
theorem decodedFrom_eq_replicate {a n : Nat} {x : Decoded} (h : ∀ k < n, decode (BitVec.ofNat 11 (a + k)) = x) :
    decodedFrom a n = List.replicate n x := by
  simpa [decodedFrom] using List.map_eq_replicate_iff.2 fun k hk => h k (List.mem_range.1 hk)

theorem decodedFrom_byte : decodedFrom 0 256 = (List.range 256).map fun k => .event (.byte (BitVec.ofNat 8 k)) := by
  refine List.map_congr_left fun k hk => decode_of_toNat ?_
  have hk : k < 256 := List.mem_range.1 hk
  rw [encode_byte_toNat, BitVec.toNat_ofNat, BitVec.toNat_ofNat]
  omega

/-- The 256 words of an opcode without data: its event, then reserved words (R73). -/
theorem decodedFrom_noData {i : Instr} {a : Nat} (hi : (encode i).toNat = a) (hop : 256 ≤ a) (hlt : a < 1024)
    (hdata : a % 256 = 0) :
    decodedFrom a 256 = .event i :: List.replicate 255 (.reserved .reservedData) := by
  rw [show 256 = 1 + 255 from rfl, decodedFrom_add, decodedFrom_eq_replicate (x := .event i),
    decodedFrom_eq_replicate (x := .reserved .reservedData)]
  · rfl
  · intro k hk
    rw [decode_eq_reservedData_iff, BitVec.toNat_ofNat]
    omega
  · intro k hk
    refine decode_of_toNat ?_
    rw [BitVec.toNat_ofNat]
    omega

theorem decodedFrom_reservedOp : decodedFrom 1024 1024 = List.replicate 1024 (.reserved .reservedOp) := by
  refine decodedFrom_eq_replicate fun k hk => ?_
  rw [decode_eq_reservedOp_iff, BitVec.toNat_ofNat]
  omega

/-- What all words decode to, in order of their numbers. -/
theorem decodedFrom_all :
    decodedFrom 0 2048 = (List.range 256).map (fun k => .event (.byte (BitVec.ofNat 8 k))) ++
      (.event .endResp :: List.replicate 255 (.reserved .reservedData)) ++
      (.event .err :: List.replicate 255 (.reserved .reservedData)) ++
      (.event .trig :: List.replicate 255 (.reserved .reservedData)) ++
      List.replicate 1024 (.reserved .reservedOp) := by
  rw [show 2048 = 256 + 256 + 256 + 256 + 1024 from rfl, decodedFrom_add, decodedFrom_add, decodedFrom_add,
    decodedFrom_add, decodedFrom_byte, decodedFrom_reservedOp,
    ← decodedFrom_noData encode_endResp_toNat (by decide) (by decide) (by decide),
    ← decodedFrom_noData encode_err_toNat (by decide) (by decide) (by decide),
    ← decodedFrom_noData encode_trig_toNat (by decide) (by decide) (by decide)]

/-- How many words decode to something of a kind: the BYTE words, the other events, and each reserved word. -/
theorem wordCount_eq (p : Decoded → Bool) :
    wordCount p = (List.range 256).countP (fun k => p (.event (.byte (BitVec.ofNat 8 k)))) +
      [Decoded.event .endResp, .event .err, .event .trig].countP p +
      3 * (if p (.reserved .reservedData) then 255 else 0) + (if p (.reserved .reservedOp) then 1024 else 0) := by
  rw [wordCount_eq_countP, decodedFrom_all]
  simp only [List.countP_append, List.countP_cons, List.countP_nil, List.countP_replicate, List.countP_map,
    Function.comp_def]
  ring

/-- Settles O3: the outcomes by opcode and data, which fix the word's number, and each count by `wordCount_eq`. -/
theorem wordsAreClassifiedInOrder : Obligations.WordsAreClassifiedInOrder := by
  refine ⟨fun w => ⟨decode_eq_reservedOp_iff, decode_eq_reservedData_iff, fun hop => decode_of_toNat ?_,
    fun hop hdata => decode_of_toNat ?_, fun hop hdata => decode_of_toNat ?_,
    fun hop hdata => decode_of_toNat ?_⟩, ?_⟩
  · rw [encode_byte_toNat, BitVec.toNat_ofNat]; omega
  · rw [encode_endResp_toNat]; omega
  · rw [encode_err_toNat]; omega
  · rw [encode_trig_toNat]; omega
  · simp [wordCount_eq]

end Sys2Proof.Machine
end

section
/-!
Reserved words in a step (30_encoding.md R73, R74), and the words a step emits (R77 to R83).
-/

namespace Sys2Proof.Machine

/-- Settles O11: a step with a reserved word raises the violation of its class. -/
theorem reservedWordsOnlyRaise : Obligations.ReservedWordsOnlyRaise :=
  fun s w rest hin =>
    ⟨fun hop => step_reserved s w rest .reservedOp hin (decode_eq_reservedOp_iff.2 hop),
      fun hlt hop hdata =>
        step_reserved s w rest .reservedData hin (decode_eq_reservedData_iff.2 ⟨hlt, hop, hdata⟩)⟩

/-! ### Emitted items (R77, R79) -/

theorem req_allowed_iff (n : ReqWord) : (Item.req n).allowed = true ↔ n = 9#4 :=
  beq_iff_eq.trans (BitVec.toNat_inj (y := 9#4))

/-- Settles O28: a step appends items that the block may emit. -/
theorem emittedItemsAreWellFormed : Obligations.EmittedItemsAreWellFormed := by
  intro s t h
  obtain ⟨items, htrace, -, hallowed, -⟩ := step_trace h
  refine ⟨items, htrace, fun x hx => ⟨?_, ?_⟩⟩
  · rintro n rfl
    exact (req_allowed_iff n).1 (hallowed _ hx)
  · rintro w rfl
    exact hallowed _ hx

/-! ### Records as numbers (R78, R80 to R83) -/

/-- Two words side by side as a number: the upper one counts in units of the lower one's range. -/
theorem toNat_append_eq_mul_add {m n : Nat} (x : BitVec m) (y : BitVec n) :
    (x ++ y).toNat = x.toNat * 2 ^ n + y.toNat := by
  rw [BitVec.toNat_append, ← Nat.shiftLeft_add_eq_or_of_lt y.isLt, Nat.shiftLeft_eq]

theorem reading_word_toNat (ckv : Bool) (b0 : Byte) (raw : RawCount) :
    (Report.reading ckv b0 raw).word.toNat = ckv.toNat * 2 ^ 24 + b0.toNat * 2 ^ 16 + raw.toNat := by
  simp only [Report.word, toNat_append_eq_mul_add, BitVec.toNat_ofBool, BitVec.toNat_ofNat]
  omega

theorem incomplete_word_toNat (n : BitVec 4) : (Report.incomplete n).word.toNat = 0x20000000 + n.toNat :=
  toNat_append_eq_mul_add (0b001#3 ++ 0#25) n

theorem ioError_word_toNat (n : BitVec 4) : (Report.ioError n).word.toNat = 0x40000000 + n.toNat :=
  toNat_append_eq_mul_add (0b010#3 ++ 0#25) n

/-- Settles O42, record by record. -/
theorem recordWordsAsNumbers : Obligations.RecordWordsAsNumbers :=
  ⟨reading_word_toNat, incomplete_word_toNat, ioError_word_toNat, by decide⟩

theorem recordKind_toNat (w : RecordWord) : (recordKind w).toNat = w.toNat / 0x20000000 := by
  rw [recordKind, BitVec.extractLsb'_toNat, Nat.shiftRight_eq_div_pow]
  omega

/-- The kinds that are never emitted have no fields (93_implementation_defined.md I10). -/
theorem recordFields_eq_none {w : RecordWord} (h : 4 ≤ (recordKind w).toNat) : recordFields w = none := by
  unfold recordFields
  split
  case h_5 => rfl
  all_goals simp_all

theorem readRecord_eq_none_of_kind {w : RecordWord} (h : 4 ≤ (recordKind w).toNat) : readRecord w = none := by
  rw [readRecord, recordFields_eq_none h]

/-- Settles O43: the kinds, the report read back from its word, and the words of kinds 4 to 7. -/
theorem recordsReadBackAsWritten : Obligations.RecordsReadBackAsWritten := by
  refine ⟨recordKind_reading, recordKind_incomplete, recordKind_ioError, by decide, readRecord_word, fun w hw => ?_⟩
  refine readRecord_eq_none_of_kind ?_
  rw [recordKind_toNat]
  omega

end Sys2Proof.Machine
end

section
/-!
The pseudo-instructions (30_encoding.md R85) and the trailer that FRAMEC adds (41_checksum_extract.md R140).
-/

namespace Sys2Proof.Machine

/-- Bytes closed by END are the response of those bytes, of which no read failed (00_scope.md R15). -/
theorem response_inputs_eq_bytesThenEnd (bs : List Byte) :
    (Response.mk bs false).inputs = (bytesThenEnd bs).map fun i => .event (encode i) := rfl

/-! ### The trailer of a list of bytes (R132, R140) -/

theorem foldl_add_eq_ofNat_sum (bs : List Byte) :
    bs.foldl (· + ·) 0 = BitVec.ofNat 8 (bs.map BitVec.toNat).sum := by
  rw [List.sum_eq_foldl, List.foldl_map]
  refine List.foldl_hom (BitVec.ofNat 8) fun n d => ?_
  rw [BitVec.ofNat_add, BitVec.ofNat_toNat, BitVec.setWidth_eq]

/-- The complement of a sum's low byte, plus 1: R133's form. -/
theorem expectedTrailer_toNat (sum : Byte) : (expectedTrailer sum).toNat = ((255 - sum.toNat) + 1) % 256 := by
  rw [expectedTrailer, BitVec.toNat_add, BitVec.toNat_not]
  rfl

theorem trailer_toNat (bs : List Byte) :
    (trailer bs).toNat = ((255 - (bs.map BitVec.toNat).sum % 256) + 1) % 256 := by
  rw [trailer, expectedTrailer_toNat, foldl_add_eq_ofNat_sum, BitVec.toNat_ofNat]

/-! ### FRAMEC (R85) -/

theorem summedBytes_of_length {bs : List Byte} (hlen : bs.length = 8) : summedBytes bs = bs.drop 1 := by
  rw [summedBytes, List.take_of_length_le (by simp [hlen])]

/-- The trailer byte is none of the summed bytes (R131). -/
theorem summedBytes_append {bs : List Byte} (hlen : bs.length = 8) (t : Byte) :
    summedBytes (bs ++ [t]) = summedBytes bs := by
  rw [summedBytes, List.take_append_of_le_length (by simp [hlen])]
  rfl

theorem frameSum_eq_sum_summedBytes (bs : List Byte) : frameSum bs = ((summedBytes bs).map BitVec.toNat).sum := rfl

/-- Eight bytes followed by the trailer of their summed bytes pass the checksum (R139, R140). -/
theorem frameChecksumOk_append_trailer {bs : List Byte} (hlen : bs.length = 8) :
    frameChecksumOk (bs ++ [trailer (summedBytes bs)]) = true := by
  have hbyte : frameByte (bs ++ [trailer (summedBytes bs)]) ckIdx = trailer (summedBytes bs) := by
    simp [frameByte, ← hlen]
  rw [frameChecksumOk, hbyte, frameSum_eq_sum_summedBytes, summedBytes_append hlen, trailer_toNat, beq_self_eq_true]

/-- Settles O46: each expansion is bytes closed by END, and FRAMEC's ninth byte is the trailer. -/
theorem pseudoInstructionsAreResponses : Obligations.PseudoInstructionsAreResponses :=
  ⟨fun bs => (response_inputs_eq_bytesThenEnd bs).symm, fun bs => (response_inputs_eq_bytesThenEnd bs).symm,
    (response_inputs_eq_bytesThenEnd []).symm, fun bs hlen =>
      ⟨trailer (summedBytes bs), (response_inputs_eq_bytesThenEnd _).symm,
        congrArg trailer (summedBytes_of_length hlen), frameChecksumOk_append_trailer hlen⟩⟩

end Sys2Proof.Machine
end

section
/-!
The outcomes of a response, event by event (40_frame_read.md R101 to R111).
-/

namespace Sys2Proof.Machine

/-! ### Violating events (R102, R103, R108, R111) -/

/-- Settles O10: each is a case of an event in which it only raises its violation. -/
theorem violatingEventsOnlyRaise : Obligations.ViolatingEventsOnlyRaise :=
  ⟨fun _ d hst => exec_eq_iff.2 (.byteIdle d hst), fun _ hst => exec_eq_iff.2 (.endIdle hst),
    fun _ hst => exec_eq_iff.2 (.errIdle hst),
    fun s d hst hcnt => exec_eq_iff.2 (.byteFull d hst ((cnt_eq_nine_iff s).1 hcnt))⟩

/-! ### BYTE (R101, 41_checksum_extract.md R130) -/

theorem accStep_of_summed (acc d : Byte) {i : Nat} (hi : 1 ≤ i ∧ i ≤ 7) : accStep acc i d = acc + d :=
  if_pos (decide_eq_true hi)

theorem accStep_of_not_summed (acc d : Byte) {i : Nat} (hi : ¬ (1 ≤ i ∧ i ≤ 7)) : accStep acc i d = acc :=
  if_neg fun h => hi (of_decide_eq_true h)

/-- Settles O15: an accepted byte is written at the counter and added by `accStep`; the other two cases raise. -/
theorem byteStoresSumsAndCounts : Obligations.ByteStoresSumsAndCounts := by
  refine ⟨fun s d hst hcnt => ?_, fun s d hst => exec_eq_iff.2 (.byteIdle d hst),
    fun s d hst hcnt => exec_eq_iff.2 (.byteFull d hst ((cnt_eq_nine_iff s).1 hcnt))⟩
  refine ⟨acceptByte s d, exec_byte_accept d hst hcnt, rfl, fun a => Memory.read_write _ _ _ _,
    fun hwf => Memory.write_wf _ _ _ hwf hcnt, fun hi => ?_, fun hi => accStep_of_not_summed _ _ (by omega)⟩
  rw [← BitVec.toNat_add, ← accStep_of_summed s.acc d hi]
  rfl

/-! ### The end of a response (42_cycle_control.md R152, R153) -/

/-- After a report the cycle goes on with the next request. -/
theorem issueRequest_emitReport (r : Report) (s : State) :
    issueRequest (emitReport r s) =
      { s with cnt := 0, acc := 0, win := Memory.empty, trace := s.trace ++ [.record r.word, .req 9#4] } := by
  ext1 <;> simp [requestWord]

/-- After a report the cycle ends, and no trigger is pending. -/
theorem endCycle_emitReport_of_no_tpend (r : Report) {s : State} (h : s.tpend = false) :
    endCycle (emitReport r s) =
      { s with st := .idle, cnt := 0, acc := 0, win := Memory.empty, trace := s.trace ++ [.record r.word] } :=
  endCycle_of_no_tpend (emitReport r s) h

/-- After a report the cycle ends, and the pending trigger starts the next one. -/
theorem endCycle_emitReport_of_tpend (r : Report) {s : State} (hst : s.st = .wait) (h : s.tpend = true) :
    endCycle (emitReport r s) =
      { s with cnt := 0, acc := 0, win := Memory.empty, tpend := false,
               trace := s.trace ++ [.record r.word, .req 9#4] } := by
  ext1 <;> simp [requestWord, hst, h]

/-! ### END and ERR (R104 to R111) -/

theorem eos_word : Report.eos.word = 0x60000000#32 := by decide

theorem incomplete_word (n : BitVec 4) : (Report.incomplete n).word = 0x20000000#32 + n.setWidth 32 := by
  rw [← BitVec.toNat_inj, incomplete_word_toNat]
  bv_omega

theorem ioError_word (n : BitVec 4) : (Report.ioError n).word = 0x40000000#32 + n.setWidth 32 := by
  rw [← BitVec.toNat_inj, ioError_word_toNat]
  bv_omega

/-- Settles O16: EOS, and then the end of the cycle. -/
theorem emptyResponseEndsTheCycle : Obligations.EmptyResponseEndsTheCycle := by
  intro s hst hcnt
  refine ⟨_, exec_eq_iff.2 (.endEmpty hst hcnt), by simp, fun h => ?_, fun h => ?_⟩
  · rw [endCycle_emitReport_of_no_tpend _ h, eos_word]
  · rw [endCycle_emitReport_of_tpend _ hst h, eos_word]

/-- Settles O17: INCOMPLETE, and then the next request. -/
theorem partialResponseIsReportedAndDiscarded : Obligations.PartialResponseIsReportedAndDiscarded := by
  intro s hst hpos hcnt
  have h0 : s.cnt ≠ 0 := by rintro h0; simp [h0] at hpos
  refine ⟨_, exec_eq_iff.2 (.endPartial hst h0 (Nat.lt_succ_of_le hcnt)), Memory.read_empty, ?_⟩
  rw [issueRequest_emitReport, incomplete_word]

theorem validateChecksum_iff (sum t : Byte) :
    validateChecksum sum t = true ↔ ((255 - sum.toNat) + 1) % 256 = t.toNat := by
  rw [validateChecksum, beq_iff_eq, ← BitVec.toNat_inj, expectedTrailer_toNat]

/-- Settles O18: the READING of the decoded cells, and then the next request. -/
theorem fullResponseIsDecoded : Obligations.FullResponseIsDecoded := by
  intro s b0 hi lo tr hst hcnt h0 h4 h5 h8
  have hr := decodeFrame_of_reads s tr hi lo b0 h8 h4 h5 h0
  refine ⟨_, _, exec_eq_iff.2 (.endFull _ hst ((cnt_eq_nine_iff s).1 hcnt).ge hr), Memory.read_empty,
    issueRequest_emitReport _ s, ?_⟩
  rw [reading_word_toNat, extractRawCount_toNat]
  simp only [← validateChecksum_iff]
  cases validateChecksum s.acc tr <;> simp

/-- Settles O19: IOERROR, and then the end of the cycle. -/
theorem failedReadEndsTheCycle : Obligations.FailedReadEndsTheCycle := by
  refine ⟨fun s hst => ?_, fun s hst => exec_eq_iff.2 (.errIdle hst)⟩
  refine ⟨_, exec_eq_iff.2 (.errWait hst), by simp, fun h => ?_, fun h => ?_⟩
  · rw [endCycle_emitReport_of_no_tpend _ h, ioError_word]
  · rw [endCycle_emitReport_of_tpend _ hst h, ioError_word]

end Sys2Proof.Machine
end

section
/-!
The outcome of a whole response (40_frame_read.md R100): the checksum and the report of its complete list of bytes, what
its terminator does, and the run over it.
-/

namespace Sys2Proof.Machine

/-! ### The checksum of a whole frame (41_checksum_extract.md R131 to R133) -/

/-- The running sum over a full window is the sum of the frame's summed bytes. -/
theorem windowSum_of_reads {m : Memory} {bs : List Byte} (hlen : bs.length = 9) (hread : ∀ i, m.read i = bs[i]?) :
    windowSum m 9 = (summedBytes bs).foldl (· + ·) 0 := by
  match bs, hlen with
  | [_, _, _, _, _, _, _, _, _], _ => simp [windowSum, accStep, summed, summedBytes, hread]

/-- The checksum of a frame compares byte 8 with the trailer of the summed bytes. -/
theorem frameChecksumOk_eq_trailer (bs : List Byte) :
    frameChecksumOk bs = (trailer (summedBytes bs) == frameByte bs ckIdx) := by
  rw [Bool.eq_iff_iff, frameChecksumOk, beq_iff_eq, beq_iff_eq, ← BitVec.toNat_inj, trailer_toNat,
    frameSum_eq_sum_summedBytes]
  exact eq_comm

/-- The comparator on the running sum gives the flag of the whole frame. -/
theorem validateChecksum_windowSum {m : Memory} {bs : List Byte} (hlen : bs.length = 9)
    (hread : ∀ i, m.read i = bs[i]?) :
    validateChecksum (windowSum m 9) (frameByte bs ckIdx) = frameChecksumOk bs := by
  rw [frameChecksumOk_eq_trailer, validateChecksum, windowSum_of_reads hlen hread]
  rfl

/-! ### The report of the received bytes -/

theorem Received.read_eq_frameByte {s : State} {bs : List Byte} (h : Received s bs) {i : Nat} (hi : i < bs.length) :
    s.win.read i = some (frameByte bs i) := by
  rw [h.2 i, frameByte, List.getD_eq_getElem?_getD, List.getElem?_eq_getElem hi, Option.getD_some]

theorem Received.cnt_eq {s : State} {bs : List Byte} (h : Received s bs) : BitVec.ofNat 4 bs.length = s.cnt := by
  rw [← h.1, BitVec.ofNat_toNat, BitVec.setWidth_eq]

theorem ofNat_rawCount (hi lo : Byte) : BitVec.ofNat 16 (hi.toNat * 256 + lo.toNat) = extractRawCount hi lo := by
  rw [← extractRawCount_toNat, BitVec.ofNat_toNat, BitVec.setWidth_eq]

/-- The decode of a full window is the READING of the frame. -/
theorem Received.decodeFrame_eq {s : State} {bs : List Byte} (h : Received s bs) (hlen : bs.length = 9)
    (hacc : s.acc = windowSum s.win 9) :
    decodeFrame s = .ok (.reading (frameChecksumOk bs) (frameByte bs startIdx)
      (BitVec.ofNat 16 ((frameByte bs rawHi).toNat * 256 + (frameByte bs rawLo).toNat))) := by
  rw [decodeFrame_of_reads s _ _ _ _ (h.read_eq_frameByte (by simp [hlen])) (h.read_eq_frameByte (by simp [hlen]))
    (h.read_eq_frameByte (by simp [hlen])) (h.read_eq_frameByte (by simp [hlen])), hacc,
    validateChecksum_windowSum hlen h.2, ofNat_rawCount]

/-! ### The terminator -/

/-- The state after a response's terminator, see `exec_terminator`. -/
def closeResponse (r : Response) (s : State) : State :=
  if r.endsCycle then endCycle (emitReport r.report s) else issueRequest (emitReport r.report s)

/-- ERR after a response's bytes. -/
theorem execErr_closes {s : State} {bs : List Byte} (hst : s.st = .wait) (h : Received s bs) :
    exec .err s = .next (closeResponse ⟨bs, true⟩ s) := by
  have hreport : (Response.mk bs true).report = .ioError s.cnt := congrArg Report.ioError h.cnt_eq
  simp only [closeResponse, hreport]
  exact exec_eq_iff.2 (.errWait hst)

/-- END after a response's bytes, by their number: none, fewer than a frame, or a frame. -/
theorem execEndResp_closes {s : State} {bs : List Byte} (hs : StateInv s) (hst : s.st = .wait) (h : Received s bs) :
    exec .endResp s = .next (closeResponse ⟨bs, false⟩ s) := by
  have hcnt := h.1
  by_cases hempty : bs.length = 0
  · have h0 : s.cnt = 0 := BitVec.eq_of_toNat_eq (hcnt.trans hempty)
    simp only [closeResponse, Response.endsCycle, Response.report, hempty]
    exact exec_eq_iff.2 (.endEmpty hst h0)
  · have h0 : s.cnt ≠ 0 := fun h0 => hempty (by simp [← hcnt, h0])
    obtain hlt | hge := Nat.lt_or_ge bs.length frameLen
    · simp only [closeResponse, Response.endsCycle, Response.report, hempty, hlt, h.cnt_eq]
      exact exec_eq_iff.2 (.endPartial hst h0 (hcnt ▸ hlt))
    · have hfull : s.cnt.toNat = 9 := le_antisymm hs.cntBound (hcnt ▸ hge)
      have hr := h.decodeFrame_eq (hcnt ▸ hfull) (hfull ▸ hs.waitSum hst)
      simp only [closeResponse, Response.endsCycle, Response.report, hempty, hge.not_gt]
      exact exec_eq_iff.2 (.endFull _ hst hfull.ge hr)

/-- After a response's bytes its terminator emits the response's report, and ends the cycle or goes on with it. -/
theorem exec_terminator {r : Response} {s : State} (hs : StateInv s) (hst : s.st = .wait) (h : Received s r.bytes) :
    exec r.terminator s = .next (closeResponse r s) :=
  match r with
  | ⟨_, true⟩  => execErr_closes hst h
  | ⟨_, false⟩ => execEndResp_closes hs hst h

/-! ### What a closed response leaves -/

section
variable (r : Response) (s : State)

@[simp] theorem closeResponse_inputs : (closeResponse r s).inputs = s.inputs := by
  unfold closeResponse; split <;> simp

@[simp] theorem closeResponse_viol : (closeResponse r s).viol = s.viol := by
  unfold closeResponse; split <;> simp

@[simp] theorem closeResponse_vcause : (closeResponse r s).vcause = s.vcause := by
  unfold closeResponse; split <;> simp

@[simp] theorem closeResponse_cnt : (closeResponse r s).cnt = 0 := by
  unfold closeResponse; split <;> simp

@[simp] theorem closeResponse_acc : (closeResponse r s).acc = 0 := by
  unfold closeResponse; split <;> simp

@[simp] theorem closeResponse_win : (closeResponse r s).win = Memory.empty := by
  unfold closeResponse; split <;> simp

@[simp] theorem closeResponse_tpend : (closeResponse r s).tpend = if r.endsCycle = true then false else s.tpend := by
  unfold closeResponse; split <;> simp

/-- The block goes IDLE only at a cycle's end with no trigger pending. -/
theorem closeResponse_st (hst : s.st = .wait) :
    (closeResponse r s).st = if r.endsCycle = true ∧ s.tpend = false then .idle else .wait := by
  unfold closeResponse; cases r.endsCycle <;> cases htpend : s.tpend <;> simp [hst, htpend]

/-- The report, and a request unless the block goes IDLE. -/
theorem closeResponse_trace :
    (closeResponse r s).trace = s.trace ++ .record r.report.word ::
      (if r.endsCycle = true ∧ s.tpend = false then [] else [.req 9#4]) := by
  unfold closeResponse; cases r.endsCycle <;> cases htpend : s.tpend <;> simp [htpend, requestWord]

end

/-! ### The run -/

theorem StateInv.acceptBytes {s : State} (hs : StateInv s) (bs : List Byte) (hst : s.st = .wait)
    (hlen : s.cnt.toNat + bs.length ≤ frameLen) : StateInv (acceptBytes s bs) := by
  induction bs generalizing s with
  | nil => exact hs
  | cons d bs ih =>
    rw [List.length_cons] at hlen
    have hcnt : s.cnt.toNat < frameLen := by omega
    refine ih (s := Machine.acceptByte s d) (hs.acceptByte d hst hcnt) hst ?_
    rw [show (Machine.acceptByte s d).cnt.toNat = s.cnt.toNat + 1 from cnt_succ_toNat hcnt]
    omega

/-- A run that ends is a first step and a run from there. -/
theorem exists_step_of_runSteps_succ {n : Nat} {s t : State} (h : runSteps (n + 1) s = .next t) :
    ∃ u, step s = .next u ∧ runSteps n u = .next t := by
  have h' := (Host.Core.run.eq_2 Sys2Proof.core s n).symm.trans h
  cases hstep : Sys2Proof.core.step s with
  | next u => exact ⟨u, hstep, (runSteps_succ_of_step n s u hstep).symm.trans h⟩
  | fault f => rw [hstep] at h'; cases h'
  | refused r => rw [hstep] at h'; cases h'

/-- A run that ends goes on from its end. -/
theorem runSteps_add_of_next (m n : Nat) {s t : State} (h : runSteps m s = .next t) :
    runSteps (m + n) s = runSteps n t := by
  induction m generalizing s with
  | zero => cases h; rw [Nat.zero_add]
  | succ m ih =>
    obtain ⟨u, hstep, hrun⟩ := exists_step_of_runSteps_succ h
    rw [Nat.succ_add, runSteps_succ_of_step _ s u hstep, ih hrun]

/-- A response's words are those of its bytes and that of its terminator. -/
theorem response_inputs_append (r : Response) (rest : List Input) :
    r.inputs ++ rest =
      r.bytes.map (fun d => Input.event (encode (.byte d))) ++ .event (encode r.terminator) :: rest := by
  simp [Response.inputs, Response.events]

/-- Accepting bytes does not look at the inputs still offered. -/
theorem acceptBytes_withInputs (s : State) (bs : List Byte) (rest : List Input) :
    acceptBytes { s with inputs := rest } bs = { acceptBytes s bs with inputs := rest } := by
  induction bs generalizing s with
  | nil => rfl
  | cons d bs ih => exact ih (acceptByte s d)

/-- The run over a response accepts its bytes and closes it. -/
theorem runSteps_response {r : Response} {s : State} {rest : List Input} (hs : StateInv s) (hst : s.st = .wait)
    (hcnt : s.cnt = 0) (hr : r.conforms = true) (hin : s.inputs = r.inputs ++ rest) :
    runSteps (r.bytes.length + 1) s = .next (closeResponse r (acceptBytes { s with inputs := rest } r.bytes)) := by
  have hlen : r.bytes.length ≤ frameLen := of_decide_eq_true hr
  have hfits : s.cnt.toNat + r.bytes.length ≤ frameLen := by simpa [hcnt] using hlen
  have hstart := hs.withInputs rest
  have hinv := hstart.acceptBytes r.bytes hst hfits
  have hreceived := (received_nil hstart hst hcnt).acceptBytes r.bytes (by simpa using hlen)
  have hbytes := runSteps_bytes r.bytes s _ hst hfits (hin.trans (response_inputs_append r rest))
  have hword := step_event _ _ rest _ (acceptBytes_inputs { s with inputs := _ } r.bytes) (decode_encode r.terminator)
  rw [← acceptBytes_withInputs, exec_terminator hinv ((acceptBytes_st _ _).trans hst) hreceived] at hword
  exact (runSteps_add_of_next _ 1 hbytes).trans (runSteps_succ_of_step 0 _ _ hword)

/-- Settles O34: accepting the bytes keeps the start's registers and trace, and closing the response sets them. -/
theorem responseHasExactlyOneOutcome : Obligations.ResponseHasExactlyOneOutcome := by
  intro r s rest hs hst hcnt hr hin
  have hrun := runSteps_response hs hst hcnt hr hin
  refine ⟨⟨_, hrun, by simp, by simp⟩, (runClaim_of_next _ _ _ _ hrun).2 fun _ => ?_⟩
  simp [closeResponse_trace, closeResponse_st, hst]

end Sys2Proof.Machine
end

section
/-!
The checksum and the fields of a READING (41_checksum_extract.md R133, R135, R139 to R141). The form of the comparator that
these laws turn on is R133's first one: a frame passes exactly if its bytes 1 to 8 add up to 0 modulo 256.
-/

namespace Sys2Proof.Machine

/-! ### The comparator's forms (R133) -/

theorem validateChecksum_iff_add_mod (s t : Byte) :
    validateChecksum s t = true ↔ (s.toNat + t.toNat) % 256 = 0 := by
  rw [validateChecksum_iff]
  omega

theorem validateChecksum_iff_eq_neg_mod (s t : Byte) :
    validateChecksum s t = true ↔ t.toNat = (256 - s.toNat) % 256 := by
  rw [validateChecksum_iff]
  omega

/-- The low byte of a complement does not depend on the width it is taken at, from 8 bits on. -/
theorem not_ofNat_toNat_mod {width : Nat} (hw : 8 ≤ width) (n : Nat) :
    (~~~BitVec.ofNat width n).toNat % 256 = 255 - n % 256 := by
  obtain ⟨k, hk⟩ : 256 ∣ 2 ^ width := Nat.pow_dvd_pow 2 hw
  have hpos : 0 < 2 ^ width := Nat.two_pow_pos width
  have hlow : n % 2 ^ width % 256 = n % 256 := Nat.mod_mod_of_dvd n ⟨k, hk⟩
  have hlt : n % 2 ^ width < 2 ^ width := Nat.mod_lt n hpos
  rw [BitVec.toNat_not, BitVec.toNat_ofNat]
  omega

theorem frameChecksumOk_iff_not_at_width {width : Nat} (hw : 8 ≤ width) (bs : List Byte) :
    frameChecksumOk bs = true ↔
      (frameByte bs 8).toNat = ((~~~BitVec.ofNat width (frameSum bs)).toNat % 256 + 1) % 256 := by
  rw [not_ofNat_toNat_mod hw]
  exact beq_iff_eq

/-- Settles O37: the comparator's two forms, the source's form, and the running sum over the window. -/
theorem comparatorFormsAgree : Obligations.ComparatorFormsAgree := by
  refine ⟨validateChecksum_iff_add_mod, validateChecksum_iff_eq_neg_mod,
    fun width bs hw _ => frameChecksumOk_iff_not_at_width (le_trans (by decide) hw) bs, fun m bs t hlen hread ht => ?_⟩
  have htrailer : frameByte bs ckIdx = t := by
    rw [frameByte, List.getD_eq_getElem?_getD, ckIdx_eq, ht, Option.getD_some]
  exact htrailer ▸ validateChecksum_windowSum hlen hread

/-! ### The sum of the checked bytes (R133, form 1) -/

/-- The sum modulo 256 of bytes 1 to 8 of a frame, trailer included, see `frameChecksumOk_iff_checkedSum`. -/
def checkedSum (bs : List Byte) : Byte := (bs.drop 1).sum

theorem expectedTrailer_eq_neg (sum : Byte) : expectedTrailer sum = -sum := (BitVec.neg_eq_not_add sum).symm

theorem trailer_eq_neg_sum (bs : List Byte) : trailer bs = -bs.sum := by
  rw [trailer, expectedTrailer_eq_neg, List.sum_eq_foldl]

theorem checkedSum_eq_summed_add_trailer {bs : List Byte} (hlen : bs.length = 9) :
    checkedSum bs = (summedBytes bs).sum + frameByte bs ckIdx := by
  have hsplit : bs.drop 1 = summedBytes bs ++ [frameByte bs ckIdx] :=
    match bs, hlen with
    | [_, _, _, _, _, _, _, _, _], _ => rfl
  rw [checkedSum, hsplit, List.sum_append, List.sum_singleton]

/-- A frame passes exactly if its checked bytes add up to 0. -/
theorem frameChecksumOk_iff_checkedSum {bs : List Byte} (hlen : bs.length = 9) :
    frameChecksumOk bs = true ↔ checkedSum bs = 0 := by
  rw [frameChecksumOk_eq_trailer, beq_iff_eq, trailer_eq_neg_sum, checkedSum_eq_summed_add_trailer hlen,
    neg_eq_iff_add_eq_zero]

/-- The flags of two frames agree if their checked bytes have the same sum. -/
theorem frameChecksumOk_congr {bs cs : List Byte} (hb : bs.length = 9) (hc : cs.length = 9)
    (h : checkedSum bs = checkedSum cs) : frameChecksumOk bs = frameChecksumOk cs := by
  rw [Bool.eq_iff_iff, frameChecksumOk_iff_checkedSum hb, frameChecksumOk_iff_checkedSum hc, h]

theorem checkedSum_frame (b0 t : Byte) (p : List Byte) : checkedSum (b0 :: p ++ [t]) = p.sum + t := by
  simp [checkedSum]

theorem checkedSum_set_zero (bs : List Byte) (v : Byte) : checkedSum (bs.set 0 v) = checkedSum bs := by
  cases bs <;> rfl

/-- A change of a checked byte changes the sum by the difference. -/
theorem checkedSum_set {bs : List Byte} {k : Nat} {x : Byte} (hk : 1 ≤ k) (hx : bs[k]? = some x) (v : Byte) :
    checkedSum (bs.set k v) = checkedSum bs + (v - x) := by
  obtain ⟨hlt, rfl⟩ := List.getElem?_eq_some_iff.1 hx
  obtain ⟨k, rfl⟩ := Nat.exists_eq_add_of_le' hk
  cases bs with
  | nil => cases hlt
  | cons b bs =>
    simp only [checkedSum, List.set_cons_succ, List.drop_one, List.tail_cons, List.sum_set',
      dif_pos (Nat.lt_of_succ_lt_succ hlt), List.getElem_cons_succ, neg_add_eq_sub]

/-! ### The trailer (R139, R140) -/

/-- Settles O36: the checked bytes add up to 0 exactly for the trailer, which is the negation of the others' sum. -/
theorem trailerIsTheOnlyPassingByte : Obligations.TrailerIsTheOnlyPassingByte := by
  refine fun p b0 t hlen => ⟨?_, ?_⟩
  · rw [frameChecksumOk_iff_checkedSum (by simp [hlen]), checkedSum_frame, trailer_eq_neg_sum, eq_neg_iff_add_eq_zero,
      add_comm]
  · rw [trailer_toNat]
    omega

/-! ### Which changes the checksum detects (R141) -/

theorem frameChecksumOk_set_eq_false {bs : List Byte} {k : Nat} {v : Byte} (hlen : bs.length = 9) (hk : 1 ≤ k)
    (hk8 : k ≤ 8) (hne : bs[k]? ≠ some v) (hok : frameChecksumOk bs = true) :
    frameChecksumOk (bs.set k v) = false := by
  have hx : bs[k]? = some bs[k] := List.getElem?_eq_getElem (by omega)
  rw [← Bool.not_eq_true, frameChecksumOk_iff_checkedSum (by simpa using hlen), checkedSum_set hk hx,
    (frameChecksumOk_iff_checkedSum hlen).1 hok, zero_add, sub_eq_zero]
  rintro rfl
  exact hne hx

theorem frameChecksumOk_set_zero {bs : List Byte} (hlen : bs.length = 9) (v : Byte) :
    frameChecksumOk (bs.set 0 v) = frameChecksumOk bs :=
  frameChecksumOk_congr (by simpa using hlen) hlen (checkedSum_set_zero bs v)

theorem frameChecksumOk_perm (b0 t : Byte) {p q : List Byte} (hlen : p.length = 7) (hperm : p.Perm q) :
    frameChecksumOk (b0 :: p ++ [t]) = frameChecksumOk (b0 :: q ++ [t]) :=
  frameChecksumOk_congr (by simp [hlen]) (by simp [← hperm.length_eq, hlen])
    (by rw [checkedSum_frame, checkedSum_frame, hperm.sum_eq])

theorem frameChecksumOk_cancelling_changes {bs : List Byte} {j k : Nat} {x y : Byte} (e : Byte) (hlen : bs.length = 9)
    (hj : 1 ≤ j) (hjk : j < k) (hx : bs[j]? = some x) (hy : bs[k]? = some y) :
    frameChecksumOk ((bs.set j (x + e)).set k (y - e)) = frameChecksumOk bs := by
  have hy' : (bs.set j (x + e))[k]? = some y := by rw [List.getElem?_set_ne hjk.ne, hy]
  refine frameChecksumOk_congr (by simpa using hlen) hlen ?_
  rw [checkedSum_set (hj.trans hjk.le) hy', checkedSum_set hj hx]
  ring

/-- Settles O38: what one change, a reordering and two cancelling changes do to the sum of the checked bytes. -/
theorem checksumDetectsSingleByteChanges : Obligations.ChecksumDetectsSingleByteChanges :=
  ⟨fun _ _ _ hlen hk hk8 hne hok => frameChecksumOk_set_eq_false hlen hk hk8 hne hok,
    fun _ v hlen => frameChecksumOk_set_zero hlen v, fun b0 t _ _ hlen hperm => frameChecksumOk_perm b0 t hlen hperm,
    fun _ _ _ _ _ e hlen hj hjk _ hx hy => frameChecksumOk_cancelling_changes e hlen hj hjk hx hy⟩

/-! ### The READING of a full window (R135, R136) -/

/-- The frame sum reads the summed cells only. -/
theorem windowSum_congr_of_summed {m m' : Memory} {n : Nat} (h : ∀ i < n, 1 ≤ i → i ≤ 7 → m.read i = m'.read i) :
    windowSum m n = windowSum m' n := by
  induction n with
  | zero => rfl
  | succ n ih =>
    have hsum : windowSum m n = windowSum m' n := ih fun i hi => h i (Nat.lt_succ_of_lt hi)
    by_cases hn : 1 ≤ n ∧ n ≤ 7
    · simp only [windowSum, hsum, h n (Nat.lt_succ_self n) hn.1 hn.2]
    · simp only [windowSum, accStep_of_not_summed _ _ hn, hsum]

theorem records_issueRequest_emitReport (r : Report) (s : State) :
    (issueRequest (emitReport r s)).records = s.records ++ [r.word] := by
  simp [State.records]

/-- END on a full window appends the READING of its cells, with the comparator on the frame sum (R131). -/
theorem StateInv.exec_endResp_full {s : State} (hs : StateInv s) (hst : s.st = .wait) (hcnt : s.cnt = 9) :
    ∃ (t : State) (tr hi lo b0 : Byte), s.win.read 8 = some tr ∧ s.win.read 4 = some hi ∧ s.win.read 5 = some lo ∧
      s.win.read 0 = some b0 ∧ exec .endResp s = .next t ∧
      t.records = s.records ++
        [(Report.reading (validateChecksum (windowSum s.win 9) tr) b0 (extractRawCount hi lo)).word] := by
  have hfull : s.cnt.toNat = 9 := (cnt_eq_nine_iff s).1 hcnt
  have hacc : s.acc = windowSum s.win 9 := hfull ▸ hs.waitSum hst
  cases hr : decodeFrame s with
  | error f => exact absurd hr (hs.decodeFrame_ne_error hst hfull.ge f)
  | ok r =>
    obtain ⟨tr, hi, lo, b0, h8, h4, h5, h0, rfl⟩ := decodeFrame_ok s r hr
    exact ⟨_, tr, hi, lo, b0, h8, h4, h5, h0, exec_eq_iff.2 (.endFull _ hst hfull.ge hr),
      hacc ▸ records_issueRequest_emitReport _ s⟩

/-- Settles O39: the fields of the two READINGs, each by the cells it is made of. -/
theorem readingFieldsDependOnTheirBytesOnly : Obligations.ReadingFieldsDependOnTheirBytesOnly := by
  intro s t hs ht hsst htst hscnt htcnt
  obtain ⟨s', tr, hi, lo, b0, h8, h4, h5, h0, hs', hsrec⟩ := hs.exec_endResp_full hsst hscnt
  obtain ⟨t', tr', hi', lo', b0', h8', h4', h5', -, ht', htrec⟩ := ht.exec_endResp_full htst htcnt
  refine ⟨s', t', _, _, hs', ht', hsrec, htrec, fun e4 e5 => ?_, fun hcells => ?_, ?_⟩
  · obtain rfl : hi = hi' := Option.some.inj (h4.symm.trans (e4.trans h4'))
    obtain rfl : lo = lo' := Option.some.inj (h5.symm.trans (e5.trans h5'))
    rw [reading_word_raw, reading_word_raw]
  · obtain rfl : tr = tr' := Option.some.inj (h8.symm.trans ((hcells 8 (by decide) (by decide)).trans h8'))
    have hsum : windowSum s.win 9 = windowSum t.win 9 :=
      windowSum_congr_of_summed fun i _ h1 h7 => hcells i h1 (Nat.le_succ_of_le h7)
    rw [reading_word_ckv, reading_word_ckv, hsum]
  · rw [reading_word_b0, h0]

end Sys2Proof.Machine
end

section
/-!
The decode cycle (42_cycle_control.md): how it starts (R151), how it ends (R155), and its requests (R154).
-/

namespace Sys2Proof.Machine

/-! ### TRIG (R151) -/

/-- Settles O20: the two cases of TRIG, and STATUS computed from the state after reset. -/
theorem trigStartsOrDefersACycle : Obligations.TrigStartsOrDefersACycle :=
  ⟨fun _ hst => ⟨_, exec_eq_iff.2 (.trigIdle hst), Memory.read_empty, rfl⟩, fun _ hst => exec_eq_iff.2 (.trigWait hst),
    _, exec_eq_iff.2 (.trigIdle rfl), by decide⟩

/-! ### The end of a cycle (R155) -/

/-- In WAIT only an empty END and ERR make the block IDLE or take the pending trigger. -/
theorem exec_ends_cycle {i : Instr} {s t : State} (h : exec i s = .next t) (hst : s.st = .wait)
    (hend : t.st = .idle ∨ (s.tpend = true ∧ t.tpend = false)) : (i = .endResp ∧ s.cnt = 0) ∨ i = .err := by
  obtain hidle | ⟨hpending, htaken⟩ := hend
  · obtain ⟨-, hst'⟩ | ⟨rfl, -⟩ | ⟨rfl, -, hcnt⟩ := exec_st_changes h (by simp [hst, hidle])
    · simp [hst] at hst'
    · exact .inr rfl
    · exact .inl ⟨rfl, hcnt⟩
  · obtain ⟨-, -, hset⟩ | ⟨-, -, rfl | ⟨rfl, hcnt⟩⟩ := exec_tpend_changes h (by simp [hpending, htaken])
    · simp [htaken] at hset
    · exact .inr rfl
    · exact .inl ⟨rfl, hcnt⟩

/-- Settles O25: a reserved word leaves `st` and `tpend`, and an event that ends the cycle is END or ERR, by its word. -/
theorem cycleEndsOnlyByEosErrorOrReset : Obligations.CycleEndsOnlyByEosErrorOrReset := by
  intro s t h hst hend
  obtain ⟨off, rest, hin, -⟩ | ⟨w, rest, c, -, -, rfl⟩ | ⟨w, rest, i, hin, hd, hexec⟩ := step_next s t h
  · exact .inl ⟨off, rest, hin⟩
  · simp [hst] at hend
  · obtain rfl := decode_eq_event_iff.1 hd
    obtain ⟨rfl, hcnt⟩ | rfl := exec_ends_cycle hexec hst hend
    · exact .inr (.inl ⟨rest, hin, hcnt⟩)
    · exact .inr (.inr ⟨rest, hin⟩)

/-! ### The channels and BUSY after a report and after a request (10_state.md R30, R31) -/

@[simp] theorem emitReport_requests (r : Report) (s : State) : (emitReport r s).requests = s.requests := by
  simp [State.requests]

@[simp] theorem emitReport_records (r : Report) (s : State) : (emitReport r s).records = s.records ++ [r.word] := by
  simp [State.records]

@[simp] theorem emitReport_busy (r : Report) (s : State) : busy (emitReport r s) = busy s := rfl

@[simp] theorem issueRequest_requests (s : State) : (issueRequest s).requests = s.requests ++ [requestWord] := by
  simp [State.requests]

@[simp] theorem issueRequest_records (s : State) : (issueRequest s).records = s.records := by
  simp [State.records]

@[simp] theorem issueRequest_busy (s : State) : busy (issueRequest s) = busy s := rfl

/-! ### The balance of requests and records (R154) -/

/-- Requests minus records minus BUSY. R154 says that it stays at 0. -/
def requestBalance (s : State) : Int := s.requests.length - s.records.length - (busy s).toNat

theorem requestBalance_eq_zero_iff (s : State) :
    requestBalance s = 0 ↔ s.requests.length = s.records.length + (busy s).toNat := by
  unfold requestBalance
  omega

theorem requestBalance_emitReport (r : Report) (s : State) :
    requestBalance (emitReport r s) = requestBalance s - 1 := by
  simp only [requestBalance, emitReport_requests, emitReport_records, emitReport_busy, List.length_append,
    List.length_singleton]
  omega

theorem requestBalance_issueRequest (s : State) : requestBalance (issueRequest s) = requestBalance s + 1 := by
  simp only [requestBalance, issueRequest_requests, issueRequest_records, issueRequest_busy, List.length_append,
    List.length_singleton]
  omega

/-- A cycle's first request is balanced by BUSY. -/
theorem requestBalance_startCycle {s : State} (hst : s.st = .idle) :
    requestBalance (startCycle s) = requestBalance s := by
  have hwait : requestBalance { s with st := .wait } = requestBalance s - 1 := by
    simp [requestBalance, busy, hst, State.requests, State.records]
  rw [startCycle, requestBalance_issueRequest, hwait, sub_add_cancel]

/-- A cycle's end either clears BUSY or issues the deferred cycle's request. -/
theorem requestBalance_endCycle {s : State} (hst : s.st = .wait) :
    requestBalance (endCycle s) = requestBalance s + 1 := by
  cases htpend : s.tpend with
  | false =>
    rw [endCycle_of_no_tpend s htpend]
    simp [requestBalance, busy, hst, State.requests, State.records]
  | true =>
    rw [endCycle_of_tpend s htpend, startCycle, requestBalance_issueRequest, ← hst]
    rfl

/-- Every event keeps the balance: a report answers a request, and is followed by the next one or by the cycle's end. -/
theorem exec_keeps_requestBalance {i : Instr} {s t : State} (h : exec i s = .next t) :
    requestBalance t = requestBalance s := by
  cases exec_eq_iff.1 h with
  | byteIdle | byteFull | byteAccept | endIdle | errIdle | trigWait => rfl
  | endEmpty hst | errWait hst =>
    rw [requestBalance_endCycle ((emitReport_st _ _).trans hst), requestBalance_emitReport, sub_add_cancel]
  | endPartial | endFull => rw [requestBalance_issueRequest, requestBalance_emitReport, sub_add_cancel]
  | trigIdle hst => exact requestBalance_startCycle hst

theorem step_keeps_requestBalance {s t : State} (h : step s = .next t)
    (hreset : ∀ off rest, s.inputs ≠ .reset off :: rest) : requestBalance t = requestBalance s := by
  obtain ⟨off, rest, hin, -⟩ | ⟨w, rest, c, -, -, rfl⟩ | ⟨w, rest, i, -, -, hexec⟩ := step_next s t h
  · exact absurd hin (hreset off rest)
  · rfl
  · exact exec_keeps_requestBalance (s := { s with inputs := rest }) hexec

/-- A step takes the oldest input and leaves the others. -/
theorem step_inputs {s t : State} (h : step s = .next t) : ∃ x, s.inputs = x :: t.inputs := by
  obtain ⟨off, rest, hin, rfl⟩ | ⟨w, rest, c, hin, -, rfl⟩ | ⟨w, rest, i, hin, -, hexec⟩ := step_next s t h
  · exact ⟨_, hin⟩
  · exact ⟨_, hin⟩
  · exact ⟨_, hin.trans (congrArg _ (exec_inputs hexec).symm)⟩

/-- A run over inputs without a reset keeps the balance. -/
theorem runSteps_keeps_requestBalance {n : Nat} {s t : State} (h : runSteps n s = .next t)
    (hreset : ∀ off, .reset off ∉ s.inputs) : requestBalance t = requestBalance s := by
  induction n generalizing s with
  | zero => cases h; rfl
  | succ n ih =>
    obtain ⟨u, hstep, hrun⟩ := exists_step_of_runSteps_succ h
    obtain ⟨x, hin⟩ := step_inputs hstep
    have hfirst : requestBalance u = requestBalance s :=
      step_keeps_requestBalance hstep fun off rest hs => hreset off (hs ▸ List.mem_cons_self)
    have hrest : ∀ off, .reset off ∉ u.inputs := fun off hmem => hreset off (hin ▸ List.mem_cons_of_mem x hmem)
    exact (ih hrun hrest).trans hfirst

theorem requestBalance_runStart (ins : List Input) : requestBalance (runStart ins) = 0 := rfl

/-- Settles O26: every step that is no reset keeps the balance, and a run starts with balance 0. -/
theorem oneRequestIsOutstandingWhileBusy : Obligations.OneRequestIsOutstandingWhileBusy := by
  refine ⟨fun s t h hreset => ?_, fun ins => (requestBalance_eq_zero_iff _).1 (requestBalance_runStart ins),
    fun n ins hreset t hrun _ => (requestBalance_eq_zero_iff t).1 ?_⟩
  · have hkeep := step_keeps_requestBalance h hreset
    unfold requestBalance at hkeep
    omega
  · exact (runSteps_keeps_requestBalance hrun hreset).trans (requestBalance_runStart ins)

end Sys2Proof.Machine
end

section
/-!
No input halts the block (60_exceptions.md R175), the violations by their cause codes (R177), and a checksum mismatch, which
is data and no violation (R173).
-/

namespace Sys2Proof.Machine

/-! ### Every input is taken (R175) -/

/-- Settles O32: in a state that satisfies the invariant every input is answered, and a step takes the oldest input. -/
theorem noInputHaltsTheBlock : Obligations.NoInputHaltsTheBlock := by
  intro s x rest hs hin
  obtain ⟨t, ht⟩ := step_answers hs hin
  obtain ⟨y, hy⟩ := step_inputs ht
  exact ⟨t, ht, (List.cons.inj (hy.symm.trans hin)).2⟩

/-! ### The violation codes (R177) -/

theorem causeCode_eq_zero_iff (c : Cause) : causeCode c = 0 ↔ c = .none := by cases c <;> decide

theorem causeCode_ne_seven (c : Cause) : causeCode c ≠ 7 := by cases c <;> decide

/-- The rows of R177's table: a word that raises a violation in state `s`, and the cause. `step_of_violationRow` and
`violationRow_of_step` tie it to the step. -/
inductive ViolationRow (s : State) (w : EventWord) : Cause → Prop
  | byteNoReq (hst : s.st = .idle) (hop : w.toNat / 256 = 0) : ViolationRow s w .byteNoReq
  | endNoReq (hst : s.st = .idle) (hw : w = 0x100) : ViolationRow s w .endNoReq
  | errNoReq (hst : s.st = .idle) (hw : w = 0x200) : ViolationRow s w .errNoReq
  | overrun (hst : s.st = .wait) (hcnt : s.cnt = 9) (hop : w.toNat / 256 = 0) : ViolationRow s w .overrun
  | reservedOp (hop : 4 ≤ w.toNat / 256) : ViolationRow s w .reservedOp
  | reservedData (hlt : w.toNat / 256 < 4) (hop : w.toNat / 256 ≠ 0) (hdata : w.toNat % 256 ≠ 0) :
      ViolationRow s w .reservedData

/-- A row's code with its condition, as R177 lists them. -/
theorem exists_violationRow_iff (s : State) (w : EventWord) (c : BitVec 3) :
    (∃ k, ViolationRow s w k ∧ causeCode k = c) ↔
      (c = 1 ∧ s.st = .idle ∧ w.toNat / 256 = 0) ∨
      (c = 2 ∧ s.st = .idle ∧ w = 0x100) ∨
      (c = 3 ∧ s.st = .idle ∧ w = 0x200) ∨
      (c = 4 ∧ s.st = .wait ∧ s.cnt = 9 ∧ w.toNat / 256 = 0) ∨
      (c = 5 ∧ 4 ≤ w.toNat / 256) ∨
      (c = 6 ∧ w.toNat / 256 < 4 ∧ w.toNat / 256 ≠ 0 ∧ w.toNat % 256 ≠ 0) := by
  constructor
  · rintro ⟨k, hrow, rfl⟩
    cases hrow with
    | byteNoReq hst hop => exact .inl ⟨rfl, hst, hop⟩
    | endNoReq hst hw => exact .inr (.inl ⟨rfl, hst, hw⟩)
    | errNoReq hst hw => exact .inr (.inr (.inl ⟨rfl, hst, hw⟩))
    | overrun hst hcnt hop => exact .inr (.inr (.inr (.inl ⟨rfl, hst, hcnt, hop⟩)))
    | reservedOp hop => exact .inr (.inr (.inr (.inr (.inl ⟨rfl, hop⟩))))
    | reservedData hlt hop hdata => exact .inr (.inr (.inr (.inr (.inr ⟨rfl, hlt, hop, hdata⟩))))
  · rintro (⟨rfl, hst, hop⟩ | ⟨rfl, hst, hw⟩ | ⟨rfl, hst, hw⟩ | ⟨rfl, hst, hcnt, hop⟩ | ⟨rfl, hop⟩ |
      ⟨rfl, hlt, hop, hdata⟩)
    · exact ⟨_, .byteNoReq hst hop, rfl⟩
    · exact ⟨_, .endNoReq hst hw, rfl⟩
    · exact ⟨_, .errNoReq hst hw, rfl⟩
    · exact ⟨_, .overrun hst hcnt hop, rfl⟩
    · exact ⟨_, .reservedOp hop, rfl⟩
    · exact ⟨_, .reservedData hlt hop hdata, rfl⟩

/-- The words of BYTE are those with opcode 0 (30_encoding.md R71). -/
theorem decode_byte_of_op {w : EventWord} (hop : w.toNat / 256 = 0) : decode w = .event (.byte (eventData w)) :=
  decode_byte w ((eventOp_eq_zero_iff w).2 hop)

theorem encode_byte_op (d : Byte) : (encode (.byte d)).toNat / 256 = 0 :=
  (eventOp_eq_zero_iff _).1 (eventOp_append 0b000#3 d)

/-- A word at a row of the table raises the row's cause. -/
theorem step_of_violationRow {s : State} {w : EventWord} {rest : List Input} {k : Cause}
    (hin : s.inputs = .event w :: rest) (hrow : ViolationRow s w k) :
    step s = .next (raiseViolation k { s with inputs := rest }) := by
  cases hrow with
  | byteNoReq hst hop =>
    exact (step_event s w rest _ hin (decode_byte_of_op hop)).trans (exec_eq_iff.2 (.byteIdle _ hst))
  | endNoReq hst hw =>
    exact (step_event s w rest _ hin ((decode_eq_event_iff (i := .endResp)).2 hw)).trans (exec_eq_iff.2 (.endIdle hst))
  | errNoReq hst hw =>
    exact (step_event s w rest _ hin ((decode_eq_event_iff (i := .err)).2 hw)).trans (exec_eq_iff.2 (.errIdle hst))
  | overrun hst hcnt hop =>
    exact (step_event s w rest _ hin (decode_byte_of_op hop)).trans
      (exec_eq_iff.2 (.byteFull _ hst ((cnt_eq_nine_iff s).1 hcnt)))
  | reservedOp hop => exact step_reserved s w rest .reservedOp hin (decode_eq_reservedOp_iff.2 hop)
  | reservedData hlt hop hdata =>
    exact step_reserved s w rest .reservedData hin (decode_eq_reservedData_iff.2 ⟨hlt, hop, hdata⟩)

/-- The first violation keeps its cause (R176). -/
theorem raiseViolation_vcause_first {s : State} (hviol : s.viol = false) (k : Cause) (rest : List Input) :
    (raiseViolation k { s with inputs := rest }).vcause = k := by
  simp [hviol]

/-- An event that raises the first violation is at the row of its cause. -/
theorem violationRow_of_exec {s t : State} {i : Instr} {rest : List Input} (hviol : s.viol = false)
    (h : exec i { s with inputs := rest } = .next t) (htviol : t.viol = true) : ViolationRow s (encode i) t.vcause := by
  cases exec_eq_iff.1 h with
  | byteIdle d hst => exact raiseViolation_vcause_first hviol _ rest ▸ .byteNoReq hst (encode_byte_op d)
  | byteFull d hst hcnt =>
    exact raiseViolation_vcause_first hviol _ rest ▸ .overrun hst ((cnt_eq_nine_iff s).2 hcnt) (encode_byte_op d)
  | endIdle hst => exact raiseViolation_vcause_first hviol _ rest ▸ .endNoReq hst rfl
  | errIdle hst => exact raiseViolation_vcause_first hviol _ rest ▸ .errNoReq hst rfl
  | byteAccept | endEmpty | endPartial | endFull | errWait | trigIdle | trigWait => simp [hviol] at htviol

/-- A word that raises the first violation is at the row of its cause. -/
theorem violationRow_of_step {s t : State} {w : EventWord} {rest : List Input} (hviol : s.viol = false)
    (hin : s.inputs = .event w :: rest) (h : step s = .next t) (htviol : t.viol = true) :
    ViolationRow s w t.vcause := by
  cases hd : decode w with
  | reserved c =>
    rw [step_reserved s w rest c hin hd] at h
    cases h
    rw [raiseViolation_vcause_first hviol]
    cases c with
    | reservedOp => exact .reservedOp (decode_eq_reservedOp_iff.1 hd)
    | reservedData =>
      obtain ⟨hlt, hop, hdata⟩ := decode_eq_reservedData_iff.1 hd
      exact .reservedData hlt hop hdata
  | event i =>
    rw [step_event s w rest i hin hd] at h
    obtain rfl := decode_eq_event_iff.1 hd
    exact violationRow_of_exec hviol h htviol

/-- Settles O12: a step raises the first violation exactly at a row of the table, and STATUS shows the row's code. -/
theorem firstViolationShowsItsCode : Obligations.FirstViolationShowsItsCode := by
  refine ⟨fun s w rest c hviol hin => ?_, fun s => ?_, fun s => ?_⟩
  · rw [← exists_violationRow_iff]
    constructor
    · rintro ⟨t, ht, htviol, rfl⟩
      exact ⟨_, violationRow_of_step hviol hin ht htviol, (statusWord_vcause t).symm⟩
    · rintro ⟨k, hrow, rfl⟩
      refine ⟨_, step_of_violationRow hin hrow, rfl, ?_⟩
      rw [statusWord_vcause, raiseViolation_vcause_first hviol]
  · rw [statusWord_vcause, causeCode_eq_zero_iff]
  · rw [statusWord_vcause]
    exact causeCode_ne_seven s.vcause

/-! ### A checksum mismatch (R173) -/

/-- The checksum flag is bit 24 of a READING and no other (30_encoding.md R80). -/
theorem reading_word_getLsbD_of_ne (ckv ckv' : Bool) (b0 : Byte) (raw : RawCount) {k : Nat} (hk : k ≠ 24) :
    (Report.reading ckv b0 raw).word.getLsbD k = (Report.reading ckv' b0 raw).word.getLsbD k := by
  simp only [Report.word, BitVec.getLsbD_append]
  by_cases hraw : k < 16
  · simp only [if_pos hraw]
  by_cases hb0 : k - 16 < 8
  · simp only [if_pos hb0]
  have hflag : ¬ k - 16 - 8 < 1 := by omega
  simp only [if_neg hflag]

/-- END on a full window whose cells are known issues the next request after the READING of them (40_frame_read.md R107). -/
theorem exec_endResp_of_reads {s : State} {tr hi lo b0 : Byte} (hst : s.st = .wait) (hcnt : s.cnt = 9)
    (h8 : s.win.read 8 = some tr) (h4 : s.win.read 4 = some hi) (h5 : s.win.read 5 = some lo)
    (h0 : s.win.read 0 = some b0) :
    exec .endResp s = .next { s with
      cnt := 0, acc := 0, win := Memory.empty,
      trace := s.trace ++
        [.record (Report.reading (validateChecksum s.acc tr) b0 (extractRawCount hi lo)).word, .req 9#4] } :=
  issueRequest_emitReport _ s ▸ exec_eq_iff.2
    (.endFull _ hst ((cnt_eq_nine_iff s).1 hcnt).ge (decodeFrame_of_reads s tr hi lo b0 h8 h4 h5 h0))

/-- STATUS shows neither the window nor the trace (10_state.md R31). -/
theorem statusWord_congr {s t : State} (hst : s.st = t.st) (hcnt : s.cnt = t.cnt) (hacc : s.acc = t.acc)
    (htpend : s.tpend = t.tpend) (hviol : s.viol = t.viol) (hvcause : s.vcause = t.vcause) :
    statusWord s = statusWord t := by
  simp only [statusWord, busy, hst, hcnt, hacc, htpend, hviol, hvcause]

/-- Settles O40: the two decodes differ in the trailer, which only the checksum flag looks at. -/
theorem checksumMismatchIsData : Obligations.ChecksumMismatchIsData := by
  intro s tr hs hst hcnt
  obtain ⟨-, tr', hi, lo, b0, h8, h4, h5, h0, -⟩ := hs.exec_endResp_full hst hcnt
  have hu := exec_endResp_of_reads (s := { s with win := s.win.write 8 tr }) (tr := tr) (hi := hi) (lo := lo) (b0 := b0)
    hst hcnt (by simp) (by simp [h4]) (by simp [h5]) (by simp [h0])
  exact ⟨_, _, _, _, exec_endResp_of_reads hst hcnt h8 h4 h5 h0, hu, rfl, rfl, rfl,
    statusWord_congr rfl rfl rfl rfl rfl rfl, hst, rfl, fun k hk => reading_word_getLsbD_of_ne _ _ _ _ hk⟩

end Sys2Proof.Machine
end

section
/-!
Reset (70_reset_and_hazards.md R200, R201), and the block with no input offered (93_implementation_defined.md I7).
-/

namespace Sys2Proof.Machine

/-! ### No step without an input (I7) -/

theorem exec_ne_refused (i : Instr) (s : State) (r : Refusal) : exec i s ≠ .refused r :=
  (eventsStopOnlyOnMissingCells i s).1 r

/-- Settles O6: reset and a reserved word have a next state, and no event is refused. -/
theorem stepIsRefusedExactlyWithoutInput : Obligations.StepIsRefusedExactlyWithoutInput := by
  intro s r
  constructor
  · intro h
    cases hin : s.inputs with
    | nil =>
      rw [step_noInput s hin] at h
      cases h
      exact ⟨rfl, rfl⟩
    | cons x rest =>
      cases x with
      | reset off => rw [step_reset s off rest hin] at h; cases h
      | event w =>
        cases hd : decode w with
        | reserved c => rw [step_reserved s w rest c hin hd] at h; cases h
        | event i => rw [step_event s w rest i hin hd] at h; exact absurd h (exec_ne_refused i _ r)
  · rintro ⟨hin, rfl⟩
    exact step_noInput s hin

/-! ### Reset, and what it alone clears (R200) -/

theorem statusWord_applyReset (s : State) : statusWord (applyReset s) = 0x00000#18 :=
  (statusWord_congr (t := State.reset) rfl rfl rfl rfl rfl rfl).trans statusWord_reset

/-- A violation that is raised stays, with its cause, since an event changes neither unless `viol` is 0 (10_state.md R28,
R29). -/
theorem exec_keeps_violation {i : Instr} {s t : State} (h : exec i s = .next t) (hviol : s.viol = true) :
    t.viol = true ∧ t.vcause = s.vcause := by
  by_contra hkept
  have hne : t.viol ≠ s.viol ∨ t.vcause ≠ s.vcause := by rwa [not_and_or, ← hviol] at hkept
  obtain ⟨-, hclear, -⟩ := exec_violation_changes h hne
  exact absurd (hviol.symm.trans hclear) (by decide)

theorem step_keeps_violation {s t : State} (h : step s = .next t) (hreset : ∀ off rest, s.inputs ≠ .reset off :: rest)
    (hviol : s.viol = true) : t.viol = true ∧ t.vcause = s.vcause := by
  obtain ⟨off, rest, hin, -⟩ | ⟨w, rest, c, -, -, rfl⟩ | ⟨w, rest, i, -, -, hexec⟩ := step_next s t h
  · exact absurd hin (hreset off rest)
  · exact ⟨rfl, if_pos hviol⟩
  · exact exec_keeps_violation (s := { s with inputs := rest }) hexec hviol

/-- Settles O7: a reset step is `applyReset` whatever is offered beside it, and every other step keeps a violation. -/
theorem resetClearsAllButTheTrace : Obligations.ResetClearsAllButTheTrace :=
  ⟨fun s off rest hin => ⟨_, step_reset s off rest hin, rfl, Memory.read_empty, statusWord_applyReset _⟩,
    fun _ _ h hreset => imp_and.1 (step_keeps_violation h hreset)⟩

end Sys2Proof.Machine
end
